-- ==== Sys2Proof/Word.lean ====
section
/-! DEFINITION. The word types of the CORE (00_scope.md R5, R6, R7) and their plainest readings. -/

namespace Sys2Proof

/-- An unsigned 8-bit value: a general register, a timer, a byte of memory (R21, R30, R31, R32). -/
abbrev Byte := BitVec 8

/-- An unsigned 16-bit value: an opcode, `I`, `pc`, a stack slot (R24, R25, R28, R70). -/
abbrev Word := BitVec 16

/-- The 12-bit address field `NNN` of an opcode (R71). -/
abbrev Addr12 := BitVec 12

/-- The 4-bit field `N` of an opcode, a count 0..15 (R71, R72). -/
abbrev Nibble := BitVec 4

/-- A general register's number 0..15, from a 4-bit opcode field (R21, R71). -/
abbrev Reg := Fin 16

/-- A logical key's number 0..15 (R35). -/
abbrev Key := Fin 16

end Sys2Proof
end

