-- ==== Sys2Proof/Config.lean ====
section
/-! DEFINITION. The parameters of 00_scope.md R5 (those a model takes as an argument, with their
defaults), the fixed sizes, and the one free value: the random draw (R9). -/

namespace Sys2Proof

/-- The second-level key of an ambiguous opcode family (R75, decision D11). -/
inductive DecodeKey where
  /-- keyed on bits 3:0, the default -/
  | lowNibble
  /-- keyed on bits 7:0 -/
  | lowByte
  /-- the opcodes on which the two keys differ get no meaning (R79, R97) -/
  | refuse
deriving DecidableEq, Repr

/-- `VF_OPERAND_ORDER`: when a flag-writing ALU instruction reads its operands (R119, decision D13). -/
inductive OperandOrder where
  /-- all operands are read before VF is written, the default -/
  | snapshot
  /-- the result is computed from registers read again after VF was written -/
  | reread
deriving DecidableEq, Repr

/-- `ROM_MAX`: the largest ROM `load` accepts (R5, R232, decision D24, conflict C2). -/
inductive RomMax where
  /-- 3584 bytes, the default -/
  | bytes3584
  /-- 3583 bytes, the alternative -/
  | bytes3583
deriving DecidableEq, Repr

/-- The number of bytes a `RomMax` allows. -/
def RomMax.toNat : RomMax → Nat
  | .bytes3584 => 3584
  | .bytes3583 => 3583

/-- The font table: 16 glyphs of 5 rows, one byte a row, bit 7 leftmost (R231). -/
abbrev Font := Vector (Vector Byte 5) 16

/-- The parameters of R5 that a model takes as an argument; fixed for one machine. -/
structure Config where
  /-- `DECODE_KEY_0` (R75) -/
  decodeKey0 : DecodeKey
  /-- `DECODE_KEY_E` (R75) -/
  decodeKeyE : DecodeKey
  /-- `SUB_EQUAL_FLAG` is 1 (R128, R130) -/
  subEqualFlag : Bool
  /-- `VF_OPERAND_ORDER` (R119) -/
  vfOperandOrder : OperandOrder
  /-- `ADDI_FLAG_CLEAR` (R151) -/
  addiFlagClear : Bool
  /-- `ROM_MAX` (R232) -/
  romMax : RomMax
  /-- `FONT` (R231) -/
  font : Font
deriving DecidableEq, Repr

/-- The standard CHIP-8 hexadecimal font, R231's table row by row. -/
def Config.defaultFont : Font :=
  #v[
    #v[0xF0, 0x90, 0x90, 0x90, 0xF0],
    #v[0x20, 0x60, 0x20, 0x20, 0x70],
    #v[0xF0, 0x10, 0xF0, 0x80, 0xF0],
    #v[0xF0, 0x10, 0xF0, 0x10, 0xF0],
    #v[0x90, 0x90, 0xF0, 0x10, 0x10],
    #v[0xF0, 0x80, 0xF0, 0x10, 0xF0],
    #v[0xF0, 0x80, 0xF0, 0x90, 0xF0],
    #v[0xF0, 0x10, 0x20, 0x40, 0x40],
    #v[0xF0, 0x90, 0xF0, 0x90, 0xF0],
    #v[0xF0, 0x90, 0xF0, 0x10, 0xF0],
    #v[0xF0, 0x90, 0xF0, 0x90, 0x90],
    #v[0xE0, 0x90, 0xE0, 0x90, 0xE0],
    #v[0xF0, 0x80, 0x80, 0x80, 0xF0],
    #v[0xE0, 0x90, 0x90, 0x90, 0xE0],
    #v[0xF0, 0x80, 0xF0, 0x80, 0xF0],
    #v[0xF0, 0x80, 0xF0, 0x80, 0x80]]

/-- R5's defaults. -/
def Config.default : Config where
  decodeKey0 := .lowNibble
  decodeKeyE := .lowNibble
  subEqualFlag := true
  vfOperandOrder := .snapshot
  addiFlagClear := true
  romMax := .bytes3584
  font := Config.defaultFont

/-- `MEM_SIZE`: addresses run from 0 to `memSize - 1 = 0xFFF` (R5, R50). -/
def memSize : Nat := 0x1000

/-- `FONT_BASE` (R5, R52). -/
def fontBase : Nat := 0x050

/-- `FONT_GLYPH_BYTES` (R5). -/
def glyphBytes : Nat := 5

/-- The size of the font region, 0x050..0x09F (R52). -/
def fontBytes : Nat := 80

/-- `PROG_BASE`, where a ROM is loaded and the engine starts (R5, R235). -/
def progBase : Nat := 0x200

/-- `STACK_DEPTH` (R5). -/
def stackDepth : Nat := 16

/-- `draw_byte()` (R9, decision D29): the n-th byte drawn from the random source. It has no body, so
nothing can be proved about any draw, and a claim holds for every draw sequence. -/
opaque Config.drawByte : Nat → Byte

end Sys2Proof
end

