-- ==== Sys2Proof/Syntax.lean ====
section
/-! DEFINITION. The instructions: one constructor per row of spec/opcode_table.json, with the
operand fields that row uses (30_encoding.md R71, R72, R77), and the assembler's lines (R81). -/

namespace Sys2Proof

/-- The 34 instructions of R77 and the four residual rows of the opcode table (unknown opcodes,
no-ops by R78, one row per family with a second-level dispatch). Register operands are always in
range because their field has 4 bits (R21). -/
inductive Instr where
  /-- CLS, `00E0` (R180) -/
  | cls
  /-- RET, `00EE` (R100) -/
  | ret
  /-- JP addr, `1nnn` (R101) -/
  | jp (nnn : Addr12)
  /-- CALL addr, `2nnn` (R102) -/
  | call (nnn : Addr12)
  /-- SE Vx, byte, `3xkk` (R103) -/
  | seImm (x : Reg) (kk : Byte)
  /-- SNE Vx, byte, `4xkk` (R104) -/
  | sneImm (x : Reg) (kk : Byte)
  /-- SE Vx, Vy, `5xyN`, N ignored (R105, R76) -/
  | seReg (x y : Reg)
  /-- LD Vx, byte, `6xkk` (R121) -/
  | ldImm (x : Reg) (kk : Byte)
  /-- ADD Vx, byte, `7xkk` (R122) -/
  | addImm (x : Reg) (kk : Byte)
  /-- LD Vx, Vy, `8xy0` (R123) -/
  | ldReg (x y : Reg)
  /-- OR Vx, Vy, `8xy1` (R124) -/
  | orReg (x y : Reg)
  /-- AND Vx, Vy, `8xy2` (R125) -/
  | andReg (x y : Reg)
  /-- XOR Vx, Vy, `8xy3` (R126) -/
  | xorReg (x y : Reg)
  /-- ADD Vx, Vy, `8xy4` (R127) -/
  | addReg (x y : Reg)
  /-- SUB Vx, Vy, `8xy5` (R128) -/
  | sub (x y : Reg)
  /-- SHR Vx, `8xy6`, Y ignored (R129, R76) -/
  | shr (x : Reg)
  /-- SUBN Vx, Vy, `8xy7` (R130) -/
  | subn (x y : Reg)
  /-- SHL Vx, `8xyE`, Y ignored (R131, R76) -/
  | shl (x : Reg)
  /-- SNE Vx, Vy, `9xyN`, N ignored (R106, R76) -/
  | sneReg (x y : Reg)
  /-- LD I, addr, `Annn` (R150) -/
  | ldI (nnn : Addr12)
  /-- JP V0, addr, `Bnnn` (R107) -/
  | jpV0 (nnn : Addr12)
  /-- RND Vx, byte, `Cxkk` (R132) -/
  | rnd (x : Reg) (kk : Byte)
  /-- DRW Vx, Vy, nibble, `Dxyn` (R181) -/
  | drw (x y : Reg) (n : Nibble)
  /-- SKP Vx, `Ex9E` (R173) -/
  | skp (x : Reg)
  /-- SKNP Vx, `ExA1` (R174) -/
  | sknp (x : Reg)
  /-- LD Vx, DT, `Fx07` (R170) -/
  | ldVxDt (x : Reg)
  /-- LD Vx, K, `Fx0A` (R175) -/
  | ldK (x : Reg)
  /-- LD DT, Vx, `Fx15` (R171) -/
  | ldDt (x : Reg)
  /-- LD ST, Vx, `Fx18` (R172) -/
  | ldSt (x : Reg)
  /-- ADD I, Vx, `Fx1E` (R151) -/
  | addI (x : Reg)
  /-- LD F, Vx, `Fx29` (R152) -/
  | ldF (x : Reg)
  /-- LD B, Vx, `Fx33` (R153) -/
  | ldB (x : Reg)
  /-- LD [I], Vx, `Fx55` (R154) -/
  | stBlock (x : Reg)
  /-- LD Vx, [I], `Fx65` (R155) -/
  | ldBlock (x : Reg)
  /-- an unknown opcode of family 0x0; `rest` is its bits 11:0 (R78, R95) -/
  | unknown0 (rest : Addr12)
  /-- an unknown opcode of family 0x8; `rest` is its bits 11:0 (R78, R95) -/
  | unknown8 (rest : Addr12)
  /-- an unknown opcode of family 0xE; `rest` is its bits 11:0 (R78, R95) -/
  | unknownE (rest : Addr12)
  /-- an unknown opcode of family 0xF; `rest` is its bits 11:0 (R78, R95) -/
  | unknownF (rest : Addr12)
deriving DecidableEq, Repr

/-- What one line of assembler text stands for (R81): an instruction, one of the two two-operand
spellings of the shifts, or raw data. -/
inductive AsmLine where
  /-- an instruction in its own spelling -/
  | instr (i : Instr)
  /-- `SHR Vx, Vy` -/
  | shrVxVy (x y : Reg)
  /-- `SHL Vx, Vy` -/
  | shlVxVy (x y : Reg)
  /-- `DW 0xhhhh` -/
  | dw (w : Word)
  /-- `DB 0xhh` -/
  | db (b : Byte)
deriving DecidableEq, Repr

end Sys2Proof
end

