-- ==== Sys2Proof/WellFormed.lean ====
section
/-! DEFINITION. Which instruction terms stand for an opcode: every operand field has its own width,
so the only check is that an `unknown` term's bits select no instruction of its family (R74, R75, R78)
and, under `Refuse`, lie outside the ambiguous set (R79). -/

namespace Sys2Proof

/-- Bits 11:0 of a family-0x0 opcode that stand for an unknown opcode under `DECODE_KEY_0` (R75, R79). -/
def isUnknown0 (key : DecodeKey) (rest : Addr12) : Bool :=
  match key with
  | .lowByte => (rest.setWidth 8 != 0xE0#8) && (rest.setWidth 8 != 0xEE#8)
  | .lowNibble | .refuse => (rest.setWidth 4 != 0x0#4) && (rest.setWidth 4 != 0xE#4)

/-- Bits 11:0 of a family-0x8 opcode that stand for an unknown opcode: N is 0x8..0xD or 0xF (R74). -/
def isUnknown8 (rest : Addr12) : Bool :=
  (rest.setWidth 4).toNat ∈ [0x8, 0x9, 0xA, 0xB, 0xC, 0xD, 0xF]

/-- Bits 11:0 of a family-0xE opcode that stand for an unknown opcode under `DECODE_KEY_E` (R75, R79). -/
def isUnknownE (key : DecodeKey) (rest : Addr12) : Bool :=
  match key with
  | .lowByte => (rest.setWidth 8 != 0x9E#8) && (rest.setWidth 8 != 0xA1#8)
  | .lowNibble | .refuse => (rest.setWidth 4 != 0xE#4) && (rest.setWidth 4 != 0x1#4)

/-- Bits 11:0 of a family-0xF opcode that stand for an unknown opcode: KK is none of the nine keys of
R74. -/
def isUnknownF (rest : Addr12) : Bool :=
  (rest.setWidth 8).toNat ∉ [0x07, 0x0A, 0x15, 0x18, 0x1E, 0x29, 0x33, 0x55, 0x65]

/-- An instruction term stands for some opcode under the given second-level keys. -/
def Instr.wf (key0 keyE : DecodeKey) : Instr → Bool
  | .unknown0 rest => isUnknown0 key0 rest
  | .unknown8 rest => isUnknown8 rest
  | .unknownE rest => isUnknownE keyE rest
  | .unknownF rest => isUnknownF rest
  | .cls | .ret | .jp _ | .call _ | .seImm _ _ | .sneImm _ _ | .seReg _ _ | .ldImm _ _
  | .addImm _ _ | .ldReg _ _ | .orReg _ _ | .andReg _ _ | .xorReg _ _ | .addReg _ _ | .sub _ _
  | .shr _ | .subn _ _ | .shl _ | .sneReg _ _ | .ldI _ | .jpV0 _ | .rnd _ _ | .drw _ _ _
  | .skp _ | .sknp _ | .ldVxDt _ | .ldK _ | .ldDt _ | .ldSt _ | .addI _ | .ldF _ | .ldB _
  | .stBlock _ | .ldBlock _ => true

end Sys2Proof
end

