-- ==== Sys2Proof/Decode.lean ====
section
/-! DEFINITION. From bits to instructions and back: the opcode fields (R71), the two-level dispatch
(R73 to R79), the encoder to the canonical encodings (R77), and the assembler's output (R81). -/

namespace Sys2Proof

/-- `F = op[15:12]` (R71). -/
def fieldF (op : Word) : Nibble := op.extractLsb' 12 4

/-- `X = op[11:8]` (R71). -/
def fieldX (op : Word) : Reg := (op.extractLsb' 8 4).toFin

/-- `Y = op[7:4]` (R71). -/
def fieldY (op : Word) : Reg := (op.extractLsb' 4 4).toFin

/-- `NNN = op[11:0]` (R71). -/
def fieldNNN (op : Word) : Addr12 := op.extractLsb' 0 12

/-- `KK = op[7:0]` (R71). -/
def fieldKK (op : Word) : Byte := op.extractLsb' 0 8

/-- `N = op[3:0]` (R71). -/
def fieldN (op : Word) : Nibble := op.extractLsb' 0 4

/-- Why an opcode gets no instruction. -/
inductive Ambiguity where
  /-- `DECODE_KEY_0 = Refuse` and the opcode is in family 0x0's ambiguous set (R79) -/
  | family0
  /-- `DECODE_KEY_E = Refuse` and the opcode is in family 0xE's ambiguous set (R79) -/
  | familyE
deriving DecidableEq, Repr

/-- Why a byte stream gives no instruction. -/
inductive DecodeError where
  /-- fewer than two bytes are left (R70: a decoder always consumes 2 bytes) -/
  | truncated
  /-- the opcode is ambiguous and its family's key is `Refuse` (R79) -/
  | ambiguous (a : Ambiguity)
deriving DecidableEq, Repr

/-- The ambiguous set of family 0x0 (R79), for an opcode of that family. -/
def ambiguous0 (op : Word) : Bool :=
  (fieldN op == 0x0#4 && fieldKK op != 0xE0#8) || (fieldN op == 0xE#4 && fieldKK op != 0xEE#8)

/-- The ambiguous set of family 0xE (R79), for an opcode of that family. -/
def ambiguousE (op : Word) : Bool :=
  (fieldN op == 0xE#4 && fieldKK op != 0x9E#8) || (fieldN op == 0x1#4 && fieldKK op != 0xA1#8)

/-- Family 0x0 keyed on the low nibble: CLS, RET or unknown (R75). -/
def decode0LowNibble (op : Word) : Instr :=
  if fieldN op = 0x0#4 then .cls
  else if fieldN op = 0xE#4 then .ret
  else .unknown0 (fieldNNN op)

/-- Family 0x0 keyed on the low byte (R75). -/
def decode0LowByte (op : Word) : Instr :=
  if fieldKK op = 0xE0#8 then .cls
  else if fieldKK op = 0xEE#8 then .ret
  else .unknown0 (fieldNNN op)

/-- The system group, family 0x0 (R75, R79, R80). -/
def decode0 (key : DecodeKey) (op : Word) : Except Ambiguity Instr :=
  match key with
  | .lowNibble => .ok (decode0LowNibble op)
  | .lowByte => .ok (decode0LowByte op)
  | .refuse => if ambiguous0 op then .error .family0 else .ok (decode0LowByte op)

/-- The ALU group, family 0x8, keyed on the low nibble (R74). -/
def decode8 (op : Word) : Instr :=
  match (fieldN op).toNat with
  | 0x0 => .ldReg (fieldX op) (fieldY op)
  | 0x1 => .orReg (fieldX op) (fieldY op)
  | 0x2 => .andReg (fieldX op) (fieldY op)
  | 0x3 => .xorReg (fieldX op) (fieldY op)
  | 0x4 => .addReg (fieldX op) (fieldY op)
  | 0x5 => .sub (fieldX op) (fieldY op)
  | 0x6 => .shr (fieldX op)
  | 0x7 => .subn (fieldX op) (fieldY op)
  | 0xE => .shl (fieldX op)
  | _ => .unknown8 (fieldNNN op)

/-- Family 0xE keyed on the low nibble: SKP, SKNP or unknown (R75). -/
def decodeELowNibble (op : Word) : Instr :=
  if fieldN op = 0xE#4 then .skp (fieldX op)
  else if fieldN op = 0x1#4 then .sknp (fieldX op)
  else .unknownE (fieldNNN op)

/-- Family 0xE keyed on the low byte (R75). -/
def decodeELowByte (op : Word) : Instr :=
  if fieldKK op = 0x9E#8 then .skp (fieldX op)
  else if fieldKK op = 0xA1#8 then .sknp (fieldX op)
  else .unknownE (fieldNNN op)

/-- The key-skip group, family 0xE (R75, R79). -/
def decodeE (key : DecodeKey) (op : Word) : Except Ambiguity Instr :=
  match key with
  | .lowNibble => .ok (decodeELowNibble op)
  | .lowByte => .ok (decodeELowByte op)
  | .refuse => if ambiguousE op then .error .familyE else .ok (decodeELowByte op)

/-- The misc group, family 0xF, keyed on the low byte (R74). -/
def decodeF (op : Word) : Instr :=
  match (fieldKK op).toNat with
  | 0x07 => .ldVxDt (fieldX op)
  | 0x0A => .ldK (fieldX op)
  | 0x15 => .ldDt (fieldX op)
  | 0x18 => .ldSt (fieldX op)
  | 0x1E => .addI (fieldX op)
  | 0x29 => .ldF (fieldX op)
  | 0x33 => .ldB (fieldX op)
  | 0x55 => .stBlock (fieldX op)
  | 0x65 => .ldBlock (fieldX op)
  | _ => .unknownF (fieldNNN op)

/-- First-level dispatch on `F` (R73); the families without a second level ignore the bits their
format does not use (R76). `F` has 4 bits, so the last arm is family 0xF alone. -/
def decode (key0 keyE : DecodeKey) (op : Word) : Except Ambiguity Instr :=
  match (fieldF op).toNat with
  | 0x0 => decode0 key0 op
  | 0x1 => .ok (.jp (fieldNNN op))
  | 0x2 => .ok (.call (fieldNNN op))
  | 0x3 => .ok (.seImm (fieldX op) (fieldKK op))
  | 0x4 => .ok (.sneImm (fieldX op) (fieldKK op))
  | 0x5 => .ok (.seReg (fieldX op) (fieldY op))
  | 0x6 => .ok (.ldImm (fieldX op) (fieldKK op))
  | 0x7 => .ok (.addImm (fieldX op) (fieldKK op))
  | 0x8 => .ok (decode8 op)
  | 0x9 => .ok (.sneReg (fieldX op) (fieldY op))
  | 0xA => .ok (.ldI (fieldNNN op))
  | 0xB => .ok (.jpV0 (fieldNNN op))
  | 0xC => .ok (.rnd (fieldX op) (fieldKK op))
  | 0xD => .ok (.drw (fieldX op) (fieldY op) (fieldN op))
  | 0xE => decodeE keyE op
  | _ => .ok (decodeF op)

/-- The opcode of two bytes, the first being bits 15:8 (R55, R70). -/
def opcodeOfBytes (hi lo : Byte) : Word := hi ++ lo

/-- Decode from a byte stream: two bytes are consumed, the rest is returned (R70). -/
def decodeBytes (key0 keyE : DecodeKey) : List Byte → Except DecodeError (Instr × List Byte)
  | hi :: lo :: rest =>
    match decode key0 keyE (opcodeOfBytes hi lo) with
    | .ok i => .ok (i, rest)
    | .error e => .error (.ambiguous e)
  | _ => .error .truncated

/-- A register number as the 4-bit field that holds it. -/
def regField (r : Reg) : Nibble := BitVec.ofNat 4 r.val

/-- Formats `Z` and `A`: family and 12 bits (R72). -/
def encodeA (f : Nibble) (nnn : Addr12) : Word := f ++ nnn

/-- Formats `XK` and, in family 0xF and 0xE, `X`: family, register and low byte (R72). -/
def encodeXK (f : Nibble) (x : Reg) (kk : Byte) : Word := f ++ regField x ++ kk

/-- Formats `XY` and `XYN`: family, two registers and low nibble (R72). -/
def encodeXYN (f : Nibble) (x y : Reg) (n : Nibble) : Word := f ++ regField x ++ regField y ++ n

/-- The canonical encoding (R77); an ignored field is 0. -/
def encode : Instr → Word
  | .cls => 0x00E0#16
  | .ret => 0x00EE#16
  | .jp nnn => encodeA 0x1 nnn
  | .call nnn => encodeA 0x2 nnn
  | .seImm x kk => encodeXK 0x3 x kk
  | .sneImm x kk => encodeXK 0x4 x kk
  | .seReg x y => encodeXYN 0x5 x y 0x0
  | .ldImm x kk => encodeXK 0x6 x kk
  | .addImm x kk => encodeXK 0x7 x kk
  | .ldReg x y => encodeXYN 0x8 x y 0x0
  | .orReg x y => encodeXYN 0x8 x y 0x1
  | .andReg x y => encodeXYN 0x8 x y 0x2
  | .xorReg x y => encodeXYN 0x8 x y 0x3
  | .addReg x y => encodeXYN 0x8 x y 0x4
  | .sub x y => encodeXYN 0x8 x y 0x5
  | .shr x => encodeXYN 0x8 x 0 0x6
  | .subn x y => encodeXYN 0x8 x y 0x7
  | .shl x => encodeXYN 0x8 x 0 0xE
  | .sneReg x y => encodeXYN 0x9 x y 0x0
  | .ldI nnn => encodeA 0xA nnn
  | .jpV0 nnn => encodeA 0xB nnn
  | .rnd x kk => encodeXK 0xC x kk
  | .drw x y n => encodeXYN 0xD x y n
  | .skp x => encodeXK 0xE x 0x9E
  | .sknp x => encodeXK 0xE x 0xA1
  | .ldVxDt x => encodeXK 0xF x 0x07
  | .ldK x => encodeXK 0xF x 0x0A
  | .ldDt x => encodeXK 0xF x 0x15
  | .ldSt x => encodeXK 0xF x 0x18
  | .addI x => encodeXK 0xF x 0x1E
  | .ldF x => encodeXK 0xF x 0x29
  | .ldB x => encodeXK 0xF x 0x33
  | .stBlock x => encodeXK 0xF x 0x55
  | .ldBlock x => encodeXK 0xF x 0x65
  | .unknown0 rest => encodeA 0x0 rest
  | .unknown8 rest => encodeA 0x8 rest
  | .unknownE rest => encodeA 0xE rest
  | .unknownF rest => encodeA 0xF rest

/-- An opcode as the bytes memory holds, bits 15:8 first (R55, R70). -/
def bytesOfOpcode (op : Word) : List Byte := [op.extractLsb' 8 8, op.extractLsb' 0 8]

/-- The bytes an assembler emits for a line (R81): the two-operand shifts put `Vy` into the `Y`
field. -/
def assemble : AsmLine → List Byte
  | .instr i => bytesOfOpcode (encode i)
  | .shrVxVy x y => bytesOfOpcode (encodeXYN 0x8 x y 0x6)
  | .shlVxVy x y => bytesOfOpcode (encodeXYN 0x8 x y 0xE)
  | .dw w => bytesOfOpcode w
  | .db b => [b]

/-- A number as `0x` and hexadecimal digits, at least `digits` of them (R81). -/
def hexText (digits n : Nat) : String :=
  let ds := Nat.toDigits 16 n
  "0x" ++ String.ofList (List.replicate (digits - ds.length) '0' ++ ds)

/-- A register's name, `V0` to `VF` (R81). -/
def regText (r : Reg) : String :=
  "V" ++ String.ofList ((Nat.toDigits 16 r.val).map Char.toUpper)

/-- An instruction in R81's spelling; an unknown opcode has no mnemonic and is written as raw data. -/
def Instr.text (i : Instr) : String :=
  match i with
  | .cls => "CLS"
  | .ret => "RET"
  | .jp nnn => "JP " ++ hexText 3 nnn.toNat
  | .call nnn => "CALL " ++ hexText 3 nnn.toNat
  | .seImm x kk => "SE " ++ regText x ++ ", " ++ hexText 2 kk.toNat
  | .sneImm x kk => "SNE " ++ regText x ++ ", " ++ hexText 2 kk.toNat
  | .seReg x y => "SE " ++ regText x ++ ", " ++ regText y
  | .ldImm x kk => "LD " ++ regText x ++ ", " ++ hexText 2 kk.toNat
  | .addImm x kk => "ADD " ++ regText x ++ ", " ++ hexText 2 kk.toNat
  | .ldReg x y => "LD " ++ regText x ++ ", " ++ regText y
  | .orReg x y => "OR " ++ regText x ++ ", " ++ regText y
  | .andReg x y => "AND " ++ regText x ++ ", " ++ regText y
  | .xorReg x y => "XOR " ++ regText x ++ ", " ++ regText y
  | .addReg x y => "ADD " ++ regText x ++ ", " ++ regText y
  | .sub x y => "SUB " ++ regText x ++ ", " ++ regText y
  | .shr x => "SHR " ++ regText x
  | .subn x y => "SUBN " ++ regText x ++ ", " ++ regText y
  | .shl x => "SHL " ++ regText x
  | .sneReg x y => "SNE " ++ regText x ++ ", " ++ regText y
  | .ldI nnn => "LD I, " ++ hexText 3 nnn.toNat
  | .jpV0 nnn => "JP V0, " ++ hexText 3 nnn.toNat
  | .rnd x kk => "RND " ++ regText x ++ ", " ++ hexText 2 kk.toNat
  | .drw x y n => "DRW " ++ regText x ++ ", " ++ regText y ++ ", " ++ toString n.toNat
  | .skp x => "SKP " ++ regText x
  | .sknp x => "SKNP " ++ regText x
  | .ldVxDt x => "LD " ++ regText x ++ ", DT"
  | .ldK x => "LD " ++ regText x ++ ", K"
  | .ldDt x => "LD DT, " ++ regText x
  | .ldSt x => "LD ST, " ++ regText x
  | .addI x => "ADD I, " ++ regText x
  | .ldF x => "LD F, " ++ regText x
  | .ldB x => "LD B, " ++ regText x
  | .stBlock x => "LD [I], " ++ regText x
  | .ldBlock x => "LD " ++ regText x ++ ", [I]"
  | .unknown0 _ | .unknown8 _ | .unknownE _ | .unknownF _ => "DW " ++ hexText 4 (encode i).toNat

/-- A line of assembler text (R81). -/
def AsmLine.text : AsmLine → String
  | .instr i => i.text
  | .shrVxVy x y => "SHR " ++ regText x ++ ", " ++ regText y
  | .shlVxVy x y => "SHL " ++ regText x ++ ", " ++ regText y
  | .dw w => "DW " ++ hexText 4 w.toNat
  | .db b => "DB " ++ hexText 2 b.toNat

/-- The 16-bit opcode of a word numbered as spec/opcode_table.json numbers it: bit 0 is the opcode's
least significant bit, and bits from `nbits` on are 0. -/
def tableOpcode (nbits w : Nat) : Word := BitVec.ofNat 16 (w % 2 ^ nbits)

/-- The instruction the decoder reads from a table word, laid out as memory holds it (R55), under the
default parameters of R5. -/
def decodeTableWord (nbits w : Nat) : Option Instr :=
  match decodeBytes Config.default.decodeKey0 Config.default.decodeKeyE
      (bytesOfOpcode (tableOpcode nbits w)) with
  | .ok (i, _) => some i
  | .error _ => none

end Sys2Proof
end

