-- ==== Sys2Proof/Machine/State.lean ====
section
/-! DEFINITION. The machine's state (10_state.md R20 to R42), the parameters and the pending turns the
model adds to it, the ways a step can stop, and the state at construction and after reset. -/

namespace Sys2Proof.Machine

/-- `FAULT`: no fault, or the cause that halted the engine (R38, R201). -/
inductive Cause where
  /-- no fault -/
  | none
  /-- a fetch with `pc + 1 > 0xFFF` (R91) -/
  | fetchRange
  /-- a data byte address above 0xFFF (R51) -/
  | memRange
  /-- CALL with `SP = 16` (R102) -/
  | stackOverflow
  /-- RET with `SP = 0` (R100) -/
  | stackUnderflow
  /-- SKP or SKNP with `V[X] > 15` (R173, R174) -/
  | keyRange
deriving DecidableEq, Repr

/-- The cause's code as R201 numbers it. -/
def Cause.code : Cause → Nat
  | .none => 0
  | .fetchRange => 1
  | .memRange => 2
  | .stackOverflow => 3
  | .stackUnderflow => 4
  | .keyRange => 5

/-- `FB`: 32 rows of 64 one-bit pixels; bit `x` of row `y` is `FB[y][x]`, 1 lit (R33). -/
abbrev Framebuffer := Vector (BitVec 64) 32

/-- The operations of R215 other than `cycle()`: the timer's tick and the host's operations. -/
inductive AgentOp where
  /-- the timer tick (R211) -/
  | tick
  /-- `KEY[k] <- b` (R215, R35) -/
  | key (k : Key) (pressed : Bool)
  /-- the renderer takes a snapshot and clears `DIRTY` (R215, R36) -/
  | present
  /-- the host hands over a ROM (R232) -/
  | load (bytes : List Byte)
  /-- reset (R234) -/
  | reset
  /-- the host reads `FAULT` and `FAULT_PC` (R215) -/
  | status
deriving DecidableEq, Repr

/-- Whose atomic step comes next (R216): the engine's cycle, or the timer's or the host's operation. -/
inductive Turn where
  /-- one `cycle()` of the engine (R90) -/
  | cycle
  /-- one operation of the timer or the host -/
  | agent (op : AgentOp)
deriving DecidableEq, Repr

/-- The machine's state: R20's tuple, and three fields of the model's own. `cfg` holds R5's parameters,
which no step changes; `draws` counts the random draws taken (R9); `schedule` lists the turns the
outside has already decided (R216), and when it is empty the engine cycles. -/
structure State where
  /-- R5's parameters (the model's field, log entry 1) -/
  cfg : Config
  /-- `V[0]..V[15]` (R21) -/
  v : Vector Byte 16
  /-- `I` (R24) -/
  i : Word
  /-- `pc` (R25) -/
  pc : Word
  /-- `STACK[0]..STACK[15]` (R28) -/
  stack : Vector Word 16
  /-- `SP`, 0..16 (R29) -/
  sp : Fin 17
  /-- `DT` (R30) -/
  dt : Byte
  /-- `ST` (R31) -/
  st : Byte
  /-- `MEM` (R32, R50): the bytes that differ from what an unlisted address reads as, by rising address -/
  mem : List Host.Cell
  /-- `FB` (R33) -/
  fb : Framebuffer
  /-- `KEY`: bit `k` is `KEY[k]`, 1 pressed (R35) -/
  key : BitVec 16
  /-- `DIRTY` (R36) -/
  dirty : Bool
  /-- `ROMBUF` (R37) -/
  romBuf : List Byte
  /-- `FAULT` (R38) -/
  fault : Cause
  /-- `FAULT_PC` (R38) -/
  faultPc : Word
  /-- how many random bytes have been drawn (the model's field, log entry 2) -/
  draws : Nat
  /-- the pending turns, the next one first (the model's field, log entry 3) -/
  schedule : List Turn
deriving DecidableEq, Repr

/-- The reasons a step stops with a fault outcome: there are none. Every fault of R201 is described by
the spec as a state (`FAULT` and `FAULT_PC` written, the engine halted, the timers and the host going
on: R202 to R205), so a faulting cycle answers a next state, and no step of this model stops so. -/
inductive Fault where
deriving DecidableEq, Repr

/-- The reasons a step is refused. -/
inductive Refusal where
  /-- An arm of `exec` whose instruction has no meaning yet; no arm raises it now. Safe. -/
  | notModelled (mnemonic : String)
  /-- Raised by a cycle when `DECODE_KEY_0 = Refuse` and the opcode is in family 0x0's ambiguous set: the
  spec says the model refuses (R79, R97). Safe: the run makes no claim from there on. -/
  | ambiguousFamily0 (opcode : Word)
  /-- Raised by a cycle when `DECODE_KEY_E = Refuse` and the opcode is in family 0xE's ambiguous set (R79,
  R97). Safe, as above. -/
  | ambiguousFamilyE (opcode : Word)
deriving DecidableEq, Repr

/-- The state at construction (R230, R42): what `reset()` gives with `ROMBUF` empty. The font is what
memory reads as where nothing is listed (Ops.lean), so no cell is listed. -/
def State.construct (cfg : Config) : State where
  cfg := cfg
  v := Vector.replicate 16 0
  i := 0
  pc := 0x200
  stack := Vector.replicate 16 0
  sp := 0
  dt := 0
  st := 0
  mem := []
  fb := Vector.replicate 32 0
  key := 0
  dirty := true
  romBuf := []
  fault := .none
  faultPc := 0
  draws := 0
  schedule := []

/-- The machine right after reset, under R5's default parameters and with no ROM loaded (R42, R230,
R234). -/
def State.reset : State := State.construct Config.default

end Sys2Proof.Machine
end

