-- ==== Sys2Proof/Machine/Operands.lean ====
section
/-! DEFINITION. Operand assembly (30_encoding.md R72) and the addresses and coordinates instructions
compute from their operands. No immediate is signed, scaled or shifted. -/

namespace Sys2Proof.Machine

/-- The general register of a number, for the loops over `V[0]..V[X]` (R154, R155). -/
def regOfNat (n : Nat) : Reg := Fin.ofNat 16 n

/-- `V[15]`, the flag register (R22). -/
def vf : Reg := 15

/-- `zext_16(NNN)` (R72). -/
def addrOperand (nnn : Addr12) : Word := nnn.setWidth 16

/-- `zext_16` of a byte (R72, R107, R152). -/
def byteOperand (b : Byte) : Word := b.setWidth 16

/-- JP V0's target: `zext_16(V[0]) + zext_16(NNN)` (R107). -/
def offsetTarget (v0 : Byte) (nnn : Addr12) : Word := byteOperand v0 + addrOperand nnn

/-- LD F's address: `0x050 + 5 · zext_16(V[X])`, with no mask (R152, decision D33). -/
def glyphAddress (d : Byte) : Word := BitVec.ofNat 16 (fontBase + glyphBytes * d.toNat)

/-- The address `I + k`, on unbounded naturals (R51): it never wraps. -/
def indexedAddress (i : Word) (k : Nat) : Nat := i.toNat + k

/-- BCD digits of a byte: hundreds, tens, ones (R153). -/
def hundredsDigit (b : Byte) : Byte := BitVec.ofNat 8 (b.toNat / 100)

/-- The tens digit (R153). -/
def tensDigit (b : Byte) : Byte := BitVec.ofNat 8 (b.toNat / 10 % 10)

/-- The ones digit (R153). -/
def onesDigit (b : Byte) : Byte := BitVec.ofNat 8 (b.toNat % 10)

/-- The column of a sprite pixel: `(xs + c) mod 64` with `xs = V[X] mod 64` (R181). -/
def pixelColumn (vx : Byte) (c : Nat) : Fin 64 := Fin.ofNat 64 (vx.toNat % 64 + c)

/-- The row of a sprite pixel: `(ys + r) mod 32` with `ys = V[Y] mod 32` (R181). -/
def pixelRow (vy : Byte) (r : Nat) : Fin 32 := Fin.ofNat 32 (vy.toNat % 32 + r)

/-- The pixels one sprite row toggles, left to right: bit 7 of the byte is column offset 0 (R181). -/
def spriteRowPixels (vx vy : Byte) (r : Nat) (row : Byte) : List (Fin 64 × Fin 32) :=
  ((List.range 8).filter fun c => row.getLsbD (7 - c)).map fun c => (pixelColumn vx c, pixelRow vy r)

/-- The pixels a sprite toggles, in R181's loop order; `r` is the first row's number. -/
def spritePixels (vx vy : Byte) : Nat → List Byte → List (Fin 64 × Fin 32)
  | _, [] => []
  | r, row :: rows => spriteRowPixels vx vy r row ++ spritePixels vx vy (r + 1) rows

end Sys2Proof.Machine
end

