-- ==== Sys2Proof/Machine/Flags.lean ====
section
/-! DEFINITION. The flag computations of 10_state.md R41 and the ALU results they go with (42_alu.md
R119, R120). Flags come from exact values, results are reduced modulo 256. -/

namespace Sys2Proof.Machine

/-- A flag as the byte VF takes: 1 or 0. -/
def flagByte (b : Bool) : Byte := if b then 1 else 0

/-- `trunc_8(vx + vy)` (R120). -/
def addResult (vx vy : Byte) : Byte := BitVec.ofNat 8 (vx.toNat + vy.toNat)

/-- ADD's carry: the 9-bit sum exceeds 0xFF (R127). -/
def carryFlag (vx vy : Byte) : Bool := decide (0xFF < vx.toNat + vy.toNat)

/-- `trunc_8(a − b + 256)` (R120, R128). -/
def subResult (a b : Byte) : Byte := BitVec.ofNat 8 (a.toNat + 256 - b.toNat)

/-- No borrow in `a − b`: `a > b`, or `a = b` when `SUB_EQUAL_FLAG` is 1 (R128, R130). -/
def noBorrowFlag (equalFlag : Bool) (a b : Byte) : Bool :=
  decide (b.toNat < a.toNat) || (decide (a = b) && equalFlag)

/-- `vx >> 1`, bit 7 of the result 0 (R129). -/
def shrResult (vx : Byte) : Byte := vx >>> 1

/-- The bit SHR shifts out, `vx[0]` (R129). -/
def shrFlag (vx : Byte) : Bool := vx.getLsbD 0

/-- `trunc_8(vx << 1)`, bit 0 of the result 0 (R131). -/
def shlResult (vx : Byte) : Byte := vx <<< 1

/-- The bit SHL shifts out, `vx[7]` (R131). -/
def shlFlag (vx : Byte) : Bool := vx.getLsbD 7

/-- ADD I's exact sum, 17 bits (R151). -/
def indexSum (i : Word) (vx : Byte) : Nat := i.toNat + vx.toNat

/-- ADD I's overflow: the sum exceeds 0xFFF (R151). -/
def indexOverflow (i : Word) (vx : Byte) : Bool := decide (0xFFF < indexSum i vx)

/-- The lowest pressed key, if any (R175, decision D18). -/
def lowestKey (key : BitVec 16) : Option Key :=
  ([0, 1, 2, 3, 4, 5, 6, 7, 8, 9, 10, 11, 12, 13, 14, 15] : List Key).find? fun k => key.getLsbD k.val

end Sys2Proof.Machine
end

