-- ==== Sys2Proof/Machine/Memory.lean ====
section
/-! DEFINITION. Memory as a sorted list of the cells that differ from the blank contents: its read,
its write, its canonical form, and the blank contents (20_memory.md, 70_reset_and_hazards.md R231). -/

namespace Sys2Proof.Machine

/-- What an unlisted address reads as: the contents at construction and after a reset with no ROM,
that is the font at 0x050..0x09F, glyph `k` at `0x050 + 5k`, and 0 elsewhere (R42, R52, R231). -/
def blankByte (font : Font) (a : Nat) : Byte :=
  if fontBase ≤ a ∧ a < fontBase + fontBytes then
    let off := a - fontBase
    (font[off / glyphBytes]?.bind fun glyph => glyph[off % glyphBytes]?).getD 0
  else 0

/-- The byte listed for an address, if any. -/
def Memory.find? : List Host.Cell → Nat → Option Byte
  | [], _ => none
  | (k, w) :: rest, a => if k = a then some w else Memory.find? rest a

/-- The byte at an address: the listed one, else the blank one. -/
def Memory.read (font : Font) (m : List Host.Cell) (a : Nat) : Byte :=
  (Memory.find? m a).getD (blankByte font a)

/-- The cells without those at an address. -/
def Memory.erase : List Host.Cell → Nat → List Host.Cell
  | [], _ => []
  | (k, w) :: rest, a => if k = a then Memory.erase rest a else (k, w) :: Memory.erase rest a

/-- The cells with an address listed, in order. -/
def Memory.insert : List Host.Cell → Nat → Byte → List Host.Cell
  | [], a, b => [(a, b)]
  | (k, w) :: rest, a, b =>
    if a < k then (a, b) :: (k, w) :: rest
    else if a = k then (a, b) :: rest
    else (k, w) :: Memory.insert rest a b

/-- Write a byte; writing what the address reads as when unlisted removes its cell. -/
def Memory.write (font : Font) (m : List Host.Cell) (a : Nat) (b : Byte) : List Host.Cell :=
  if b = blankByte font a then Memory.erase m a else Memory.insert m a b

/-- Every listed address is above `lo`, rising, inside the address space, and differs from blank. -/
def Memory.wfAbove (font : Font) : Option Nat → List Host.Cell → Bool
  | _, [] => true
  | lo, (k, w) :: rest =>
    (match lo with
      | none => true
      | some l => decide (l < k))
    && decide (k < memSize) && decide (w ≠ blankByte font k) && Memory.wfAbove font (some k) rest

/-- The canonical form: addresses strictly rising and at most 0xFFF, no cell equal to blank. -/
def Memory.wf (font : Font) (m : List Host.Cell) : Bool := Memory.wfAbove font none m

/-- Write bytes at consecutive addresses from `a` on, in rising order. -/
def Memory.writeBytes (font : Font) (m : List Host.Cell) (a : Nat) : List Byte → List Host.Cell
  | [] => m
  | b :: bs => Memory.writeBytes font (Memory.write font m a b) (a + 1) bs

end Sys2Proof.Machine
end

