-- ==== Sys2Proof/Machine/Ops.lean ====
section
/-! DEFINITION. The named operations every meaning is written over: registers, memory access, the
stack, the framebuffer, fetch, and raising a fault (00_scope.md R8, 60_exceptions.md R202). A handler
runs on the state whose `pc` is already advanced (R93) and may raise a cause. -/

namespace Sys2Proof.Machine

/-- Read `V[r]` (R8). -/
def State.readV (s : State) (r : Reg) : Byte := s.v.get r

/-- Write `V[r]` (R8). -/
def State.writeV (s : State) (r : Reg) (b : Byte) : State := { s with v := s.v.set r.val b r.isLt }

/-- Write `I` (R8, R24): all 16 bits, no mask. -/
def State.writeI (s : State) (w : Word) : State := { s with i := w }

/-- Write `pc` (R8, R27). -/
def State.writePc (s : State) (w : Word) : State := { s with pc := w }

/-- The engine's advance before dispatch: `pc <- a + 2`, modulo 2^16 (R93, R27). -/
def State.advance (s : State) : State := { s with pc := s.pc + 2 }

/-- A skip adds exactly 2 more when its condition holds (R108). -/
def State.skipIf (s : State) (cond : Bool) : State := if cond then s.writePc (s.pc + 2) else s

/-- `MEM[a]`, for any natural address; the access primitives below test the range. -/
def State.byteAt (s : State) (a : Nat) : Byte := Memory.read s.cfg.font s.mem a

/-- `MEM[a] <- b`, without the range test. -/
def State.writeByte (s : State) (a : Nat) (b : Byte) : State :=
  { s with mem := Memory.write s.cfg.font s.mem a b }

/-- `MemRead(a, 1)` (R51). -/
def State.memRead (s : State) (a : Nat) : Except Cause Byte :=
  if 0xFFF < a then .error .memRange else .ok (s.byteAt a)

/-- `MemWrite(a, 1, b)` (R51). -/
def State.memWrite (s : State) (a : Nat) (b : Byte) : Except Cause State :=
  if 0xFFF < a then .error .memRange else .ok (s.writeByte a b)

/-- `for k in 0 .. n-1: body k`, stopping at the first raised cause. -/
def loop {α : Type} (body : Nat → α → Except Cause α) : Nat → α → Except Cause α
  | 0, x => .ok x
  | n + 1, x => (loop body n x).bind (body n)

/-- The bytes at `I .. I+n-1`, read in rising order (R181). -/
def State.readRows (s : State) (n : Nat) : Except Cause (List Byte) :=
  loop (fun r rows => (s.memRead (indexedAddress s.i r)).map fun b => rows ++ [b]) n []

/-- `MEM[I + k] <- V[k]` for `k` in `0 .. n-1` (R154). -/
def State.storeRegs (s : State) (n : Nat) : Except Cause State :=
  loop (fun k t => t.memWrite (indexedAddress s.i k) (t.readV (regOfNat k))) n s

/-- `V[k] <- MEM[I + k]` for `k` in `0 .. n-1` (R155). -/
def State.loadRegs (s : State) (n : Nat) : Except Cause State :=
  loop (fun k t => (t.memRead (indexedAddress s.i k)).map fun b => t.writeV (regOfNat k) b) n s

/-- Push a return address: `STACK[SP] <- w; SP <- SP + 1`, or `STACK_OVERFLOW` when `SP = 16` (R102). -/
def State.push (s : State) (w : Word) : Except Cause State :=
  if h : s.sp.val < 16 then
    .ok { s with stack := s.stack.set s.sp.val w h, sp := ⟨s.sp.val + 1, Nat.succ_lt_succ h⟩ }
  else .error .stackOverflow

/-- Pop a return address: `SP <- SP - 1`, then read `STACK[SP]`, or `STACK_UNDERFLOW` when `SP = 0`; the
slot keeps its value (R100, R28). -/
def State.pop (s : State) : Except Cause (Word × State) :=
  match s.sp with
  | ⟨0, _⟩ => .error .stackUnderflow
  | ⟨n + 1, h⟩ => .ok (s.stack.get ⟨n, Nat.lt_of_succ_lt_succ h⟩, { s with sp := ⟨n, Nat.lt_of_succ_lt h⟩ })

/-- `KEY[k]` (R35). -/
def State.keyDown (s : State) (k : Key) : Bool := s.key.getLsbD k.val

/-- The key a register's value names, or `KEY_RANGE` when it is above 15 (R173, R174). -/
def keyOfByte (b : Byte) : Except Cause Key :=
  if h : b.toNat < 16 then .ok ⟨b.toNat, h⟩ else .error .keyRange

/-- `FB[y][x]` (R33). -/
def Framebuffer.pixel (fb : Framebuffer) (x : Fin 64) (y : Fin 32) : Bool := (fb.get y).getLsbD x.val

/-- `FB[y][x] <- FB[y][x] XOR 1` (R181). -/
def Framebuffer.toggle (fb : Framebuffer) (x : Fin 64) (y : Fin 32) : Framebuffer :=
  fb.set y.val (fb.get y ^^^ (1#64 <<< x.val)) y.isLt

/-- One pixel of DRW's loop: note a collision if the pixel is lit, then toggle it (R181). -/
def drawPixel (acc : Framebuffer × Bool) (p : Fin 64 × Fin 32) : Framebuffer × Bool :=
  (acc.1.toggle p.1 p.2, acc.2 || acc.1.pixel p.1 p.2)

/-- XOR the listed pixels onto the framebuffer; the flag says whether a lit one was turned off (R181). -/
def drawPixels (fb : Framebuffer) (ps : List (Fin 64 × Fin 32)) : Framebuffer × Bool :=
  ps.foldl drawPixel (fb, false)

/-- The framebuffer with every pixel unlit (R180). -/
def clearedFramebuffer : Framebuffer := Vector.replicate 32 0

/-- Fault entry, for a cycle that began in this state: `FAULT <- c`, `FAULT_PC <- a`, and nothing else
changes, not even `pc` (R202, R203). The engine is then halted (R204), and nothing but reset returns
from it (R205). -/
def State.enterFault (s : State) (c : Cause) : State := { s with fault := c, faultPc := s.pc }

/-- The end of a cycle that began in state `s`: the handler's state, or the fault it raised entered
from `s` itself, so that no partial effect stands (R96, R203). -/
def State.finish (s : State) (r : Except Cause State) : Host.Outcome State Fault Refusal :=
  match r with
  | .ok t => .next t
  | .error c => .next (s.enterFault c)

/-- Fetch: the big-endian opcode at `pc`, or `FETCH_RANGE` when `pc + 1 > 0xFFF` (R91, R55). -/
def State.fetch (s : State) : Except Cause Word :=
  if 0xFFF < s.pc.toNat + 1 then .error .fetchRange
  else .ok (s.byteAt s.pc.toNat ++ s.byteAt (s.pc.toNat + 1))

/-- VF is written with the flag, then the destination with the result, so a destination VF keeps the
result (R119). -/
def State.writeFlagThen (s : State) (flag : Bool) (x : Reg) (result : Byte) : State :=
  (s.writeV vf (flagByte flag)).writeV x result

/-- A flag-writing ALU instruction under `VF_OPERAND_ORDER` (R119): `Snapshot` reads both operands first;
`Reread` reads them again for the result after VF is written. -/
def State.flagOp (s : State) (x y : Reg) (flag : Byte → Byte → Bool) (result : Byte → Byte → Byte) : State :=
  match s.cfg.vfOperandOrder with
  | .snapshot => s.writeFlagThen (flag (s.readV x) (s.readV y)) x (result (s.readV x) (s.readV y))
  | .reread =>
    let t := s.writeV vf (flagByte (flag (s.readV x) (s.readV y)))
    t.writeV x (result (t.readV x) (t.readV y))

end Sys2Proof.Machine
end

