-- ==== Sys2Proof/Machine/Agents.lean ====
section
/-! DEFINITION. The timer's tick and the host's operations (60_exceptions.md R209 to R217), with the
loader and reset (70_reset_and_hazards.md R230 to R237). Each is one atomic step on the state, and each
answers what it shows the outside; the answer is not state (R39, R212). -/

namespace Sys2Proof.Machine

/-- What one operation shows the outside (R214, R215). -/
inductive Response where
  /-- nothing -/
  | silent
  /-- the tone request of a tick (R212) -/
  | tone (requested : Bool)
  /-- the snapshot of `FB` and `DIRTY` (R215) -/
  | frame (fb : Framebuffer) (dirty : Bool)
  /-- whether a ROM was loaded (R232, R233) -/
  | loaded (ok : Bool)
  /-- `FAULT` and `FAULT_PC` (R215) -/
  | faultStatus (fault : Cause) (faultPc : Word)
deriving DecidableEq, Repr

/-- A timer's countdown by one, never below 0 (R211, R30). -/
def countDown (b : Byte) : Byte := if b = 0 then 0 else b - 1

/-- The tone request: exactly the tick that moves `ST` from 1 to 0 (R211, R212). -/
def toneRequested (s : State) : Bool := s.st == 1

/-- `tick()`: both timers count down, independently and whatever `FAULT` holds (R211). -/
def State.tick (s : State) : State × Bool :=
  ({ s with dt := countDown s.dt, st := countDown s.st }, toneRequested s)

/-- `KEY[k] <- b` in the keypad bitmap (R215). -/
def setKeyBit (key : BitVec 16) (k : Key) (pressed : Bool) : BitVec 16 :=
  if pressed then key ||| (1#16 <<< k.val) else key &&& ~~~(1#16 <<< k.val)

/-- `key(k, b)` (R215). -/
def State.pressKey (s : State) (k : Key) (pressed : Bool) : State :=
  { s with key := setKeyBit s.key k pressed }

/-- `present()`: the snapshot, then `DIRTY <- 0` (R215, decision D27). -/
def State.present (s : State) : State × Framebuffer × Bool :=
  ({ s with dirty := false }, s.fb, s.dirty)

/-- The 32-bit value a renderer shows for a pixel (R34, decision D22). -/
def presentedPixel (lit : Bool) : BitVec 32 := if lit then 0xFFFFFFFF else 0

/-- `load(bytes)`: the ROM's bytes at 0x200 onward and into `ROMBUF`, or nothing at all when the ROM is
longer than `ROM_MAX`; no register, no other byte and no fault changes (R232, R233). -/
def State.load (s : State) (bytes : List Byte) : State × Bool :=
  if s.cfg.romMax.toNat < bytes.length then (s, false)
  else ({ s with mem := Memory.writeBytes s.cfg.font s.mem progBase bytes, romBuf := bytes }, true)

/-- `reset()` (R234): zeroed memory with the font is memory with no cell listed; `ROMBUF` is copied back
and kept. The parameters, the draw counter (decision D34: no reseed) and the pending turns are not the
spec's state and stay. -/
def State.resetOp (s : State) : State :=
  { s with
    v := Vector.replicate 16 0
    stack := Vector.replicate 16 0
    key := 0
    i := 0
    sp := 0
    dt := 0
    st := 0
    fb := Vector.replicate 32 0
    mem := Memory.writeBytes s.cfg.font [] progBase s.romBuf
    pc := 0x200
    dirty := true
    fault := .none
    faultPc := 0 }

/-- `status()` reads only (R215). -/
def State.status (s : State) : Cause × Word := (s.fault, s.faultPc)

/-- One operation of the timer or the host: the state after it, and what it shows (R215). -/
def State.perform (s : State) : AgentOp → State × Response
  | .tick => (s.tick.1, .tone s.tick.2)
  | .key k pressed => (s.pressKey k pressed, .silent)
  | .present => (s.present.1, .frame s.present.2.1 s.present.2.2)
  | .load bytes => ((s.load bytes).1, .loaded (s.load bytes).2)
  | .reset => (s.resetOp, .silent)
  | .status => (s, .faultStatus s.status.1 s.status.2)

/-- Boot (R237): construct, then load the program; the answer is `load`'s. -/
def boot (cfg : Config) (rom : List Byte) : State × Bool := (State.construct cfg).load rom

end Sys2Proof.Machine
end

