-- ==== Sys2Proof/Machine/Alu.lean ====
section
/-! DEFINITION. Register loads, arithmetic, logic, shifts and random (42_alu.md R119 to R132). -/

namespace Sys2Proof.Machine

/-- LD Vx, byte (R121). -/
def execLdImm (x : Reg) (kk : Byte) (s : State) : Host.Outcome State Fault Refusal :=
  .next (s.advance.writeV x kk)

/-- ADD Vx, byte: a carry is lost, VF is no flag here (R122). -/
def execAddImm (x : Reg) (kk : Byte) (s : State) : Host.Outcome State Fault Refusal :=
  .next (s.advance.writeV x (addResult (s.readV x) kk))

/-- LD Vx, Vy (R123). -/
def execLdReg (x y : Reg) (s : State) : Host.Outcome State Fault Refusal :=
  .next (s.advance.writeV x (s.readV y))

/-- OR Vx, Vy: VF is not written unless it is the destination (R124). -/
def execOrReg (x y : Reg) (s : State) : Host.Outcome State Fault Refusal :=
  .next (s.advance.writeV x (s.readV x ||| s.readV y))

/-- AND Vx, Vy (R125). -/
def execAndReg (x y : Reg) (s : State) : Host.Outcome State Fault Refusal :=
  .next (s.advance.writeV x (s.readV x &&& s.readV y))

/-- XOR Vx, Vy (R126). -/
def execXorReg (x y : Reg) (s : State) : Host.Outcome State Fault Refusal :=
  .next (s.advance.writeV x (s.readV x ^^^ s.readV y))

/-- ADD Vx, Vy: the 9-bit sum is taken before the flag is written, under either operand order (R119,
R127). -/
def execAddReg (x y : Reg) (s : State) : Host.Outcome State Fault Refusal :=
  .next (s.advance.writeFlagThen (carryFlag (s.readV x) (s.readV y)) x
    (addResult (s.readV x) (s.readV y)))

/-- SUB Vx, Vy (R128). -/
def execSub (x y : Reg) (s : State) : Host.Outcome State Fault Refusal :=
  .next (s.advance.flagOp x y (noBorrowFlag s.cfg.subEqualFlag) subResult)

/-- SHR Vx: the operand is `V[X]`, `Y` is ignored (R129). -/
def execShr (x : Reg) (s : State) : Host.Outcome State Fault Refusal :=
  .next (s.advance.flagOp x x (fun vx _ => shrFlag vx) (fun vx _ => shrResult vx))

/-- SUBN Vx, Vy: `vy − vx` (R130). -/
def execSubn (x y : Reg) (s : State) : Host.Outcome State Fault Refusal :=
  .next (s.advance.flagOp x y (fun vx vy => noBorrowFlag s.cfg.subEqualFlag vy vx)
    (fun vx vy => subResult vy vx))

/-- SHL Vx: the operand is `V[X]`, `Y` is ignored (R131). -/
def execShl (x : Reg) (s : State) : Host.Outcome State Fault Refusal :=
  .next (s.advance.flagOp x x (fun vx _ => shlFlag vx) (fun vx _ => shlResult vx))

/-- RND Vx, byte: one fresh draw, masked (R132, R9). -/
def execRnd (x : Reg) (kk : Byte) (s : State) : Host.Outcome State Fault Refusal :=
  .next (State.writeV { s.advance with draws := s.draws + 1 } x (Config.drawByte s.draws &&& kk))

end Sys2Proof.Machine
end

