-- ==== Sys2Proof/Machine/Display.lean ====
section
/-! DEFINITION. The display instructions CLS and DRW (45_display.md R180 to R182). -/

namespace Sys2Proof.Machine

/-- CLS: every pixel unlit, `DIRTY` set (R180). -/
def execCls (s : State) : Host.Outcome State Fault Refusal :=
  .next { s.advance with fb := clearedFramebuffer, dirty := true }

/-- DRW's effect once its rows are read: the pixels toggled, VF the collision, `DIRTY` set; the
coordinates are those before VF is cleared (R181, decision D20). -/
def State.blit (s : State) (vx vy : Byte) (rows : List Byte) : State :=
  let drawn := drawPixels s.fb (spritePixels vx vy 0 rows)
  State.writeV { s with fb := drawn.1, dirty := true } vf (flagByte drawn.2)

/-- DRW Vx, Vy, nibble (R181). -/
def execDrw (x y : Reg) (n : Nibble) (s : State) : Host.Outcome State Fault Refusal :=
  s.finish ((s.advance.readRows n.toNat).map fun rows => s.advance.blit (s.readV x) (s.readV y) rows)

end Sys2Proof.Machine
end

