-- ==== Sys2Proof/Machine/Flow.lean ====
section
/-! DEFINITION. Control transfer (41_flow.md R100 to R109). Each meaning takes the state as the cycle
found it, `pc = a`, and works on the advanced one (R93). -/

namespace Sys2Proof.Machine

/-- RET (R100). -/
def execRet (s : State) : Host.Outcome State Fault Refusal :=
  s.finish (s.advance.pop.map fun r => r.2.writePc r.1)

/-- JP addr (R101). -/
def execJp (nnn : Addr12) (s : State) : Host.Outcome State Fault Refusal :=
  .next (s.advance.writePc (addrOperand nnn))

/-- CALL addr: the return address is the advanced `pc` (R102). -/
def execCall (nnn : Addr12) (s : State) : Host.Outcome State Fault Refusal :=
  s.finish ((s.advance.push s.advance.pc).map fun t => t.writePc (addrOperand nnn))

/-- SE Vx, byte (R103). -/
def execSeImm (x : Reg) (kk : Byte) (s : State) : Host.Outcome State Fault Refusal :=
  .next (s.advance.skipIf (s.readV x == kk))

/-- SNE Vx, byte (R104). -/
def execSneImm (x : Reg) (kk : Byte) (s : State) : Host.Outcome State Fault Refusal :=
  .next (s.advance.skipIf (s.readV x != kk))

/-- SE Vx, Vy (R105). -/
def execSeReg (x y : Reg) (s : State) : Host.Outcome State Fault Refusal :=
  .next (s.advance.skipIf (s.readV x == s.readV y))

/-- SNE Vx, Vy (R106). -/
def execSneReg (x y : Reg) (s : State) : Host.Outcome State Fault Refusal :=
  .next (s.advance.skipIf (s.readV x != s.readV y))

/-- JP V0, addr: the base register is V0, and the sum is not masked (R107). -/
def execJpV0 (nnn : Addr12) (s : State) : Host.Outcome State Fault Refusal :=
  .next (s.advance.writePc (offsetTarget (s.readV 0) nnn))

end Sys2Proof.Machine
end

