-- ==== Sys2Proof/Machine/IndexMemory.lean ====
section
/-! DEFINITION. The index register, the font address, BCD and the block store and load
(43_index_memory.md R150 to R155). -/

namespace Sys2Proof.Machine

/-- LD I, addr (R150). -/
def execLdI (nnn : Addr12) (s : State) : Host.Outcome State Fault Refusal :=
  .next (s.advance.writeI (addrOperand nnn))

/-- VF after ADD I: 1 on overflow; otherwise 0 when `ADDI_FLAG_CLEAR`, else kept (R151). -/
def State.writeIndexFlag (s : State) (overflow : Bool) : State :=
  if overflow then s.writeV vf 1 else if s.cfg.addiFlagClear then s.writeV vf 0 else s

/-- ADD I, Vx: the sum uses `V[X]` as it was, then VF gets the flag (R151). -/
def execAddI (x : Reg) (s : State) : Host.Outcome State Fault Refusal :=
  .next ((s.advance.writeIndexFlag (indexOverflow s.i (s.readV x))).writeI
    (BitVec.ofNat 16 (indexSum s.i (s.readV x))))

/-- LD F, Vx (R152). -/
def execLdF (x : Reg) (s : State) : Host.Outcome State Fault Refusal :=
  .next (s.advance.writeI (glyphAddress (s.readV x)))

/-- The three writes of LD B, hundreds first (R153). -/
def State.storeDigits (s : State) (b : Byte) : Except Cause State :=
  ((s.memWrite (indexedAddress s.i 0) (hundredsDigit b)).bind fun t =>
    t.memWrite (indexedAddress s.i 1) (tensDigit b)).bind fun t =>
      t.memWrite (indexedAddress s.i 2) (onesDigit b)

/-- LD B, Vx (R153). -/
def execLdB (x : Reg) (s : State) : Host.Outcome State Fault Refusal :=
  s.finish (s.advance.storeDigits (s.readV x))

/-- LD [I], Vx: `X + 1` registers, `I` unchanged (R154). -/
def execStBlock (x : Reg) (s : State) : Host.Outcome State Fault Refusal :=
  s.finish (s.advance.storeRegs (x.val + 1))

/-- LD Vx, [I]: `X + 1` registers, `I` unchanged (R155). -/
def execLdBlock (x : Reg) (s : State) : Host.Outcome State Fault Refusal :=
  s.finish (s.advance.loadRegs (x.val + 1))

end Sys2Proof.Machine
end

