-- ==== Sys2Proof/Machine/TimersKeypad.lean ====
section
/-! DEFINITION. Timer access and the keypad instructions (44_timers_keypad.md R170 to R175). -/

namespace Sys2Proof.Machine

/-- LD Vx, DT (R170). -/
def execLdVxDt (x : Reg) (s : State) : Host.Outcome State Fault Refusal :=
  .next (s.advance.writeV x s.dt)

/-- LD DT, Vx (R171). -/
def execLdDt (x : Reg) (s : State) : Host.Outcome State Fault Refusal :=
  .next { s.advance with dt := s.readV x }

/-- LD ST, Vx: no tone comes from the write itself (R172). -/
def execLdSt (x : Reg) (s : State) : Host.Outcome State Fault Refusal :=
  .next { s.advance with st := s.readV x }

/-- SKP Vx (R173). -/
def execSkp (x : Reg) (s : State) : Host.Outcome State Fault Refusal :=
  s.finish ((keyOfByte (s.readV x)).map fun k => s.advance.skipIf (s.keyDown k))

/-- SKNP Vx (R174). -/
def execSknp (x : Reg) (s : State) : Host.Outcome State Fault Refusal :=
  s.finish ((keyOfByte (s.readV x)).map fun k => s.advance.skipIf (!s.keyDown k))

/-- LD Vx, K: the lowest pressed key, or `pc` back to this instruction (R175). -/
def execLdK (x : Reg) (s : State) : Host.Outcome State Fault Refusal :=
  .next (match lowestKey s.key with
    | some k => s.advance.writeV x (BitVec.ofNat 8 k.val)
    | none => s.advance.writePc (s.advance.pc - 2))

end Sys2Proof.Machine
end

