-- ==== Sys2Proof/Machine/Unknown.lean ====
section
/-! DEFINITION. The unknown opcodes, one meaning per row of the opcode table: a no-op that advances
`pc` (30_encoding.md R78, 40_cycle.md R95). -/

namespace Sys2Proof.Machine

/-- An unknown opcode of family 0x0 (R80, R95). -/
def execUnknown0 (_rest : Addr12) (s : State) : Host.Outcome State Fault Refusal := .next s.advance

/-- An unknown opcode of family 0x8 (R74, R95). -/
def execUnknown8 (_rest : Addr12) (s : State) : Host.Outcome State Fault Refusal := .next s.advance

/-- An unknown opcode of family 0xE (R75, R95). -/
def execUnknownE (_rest : Addr12) (s : State) : Host.Outcome State Fault Refusal := .next s.advance

/-- An unknown opcode of family 0xF (R74, R95). -/
def execUnknownF (_rest : Addr12) (s : State) : Host.Outcome State Fault Refusal := .next s.advance

end Sys2Proof.Machine
end

