-- ==== Sys2Proof/Machine/Engine.lean ====
section
/-! DEFINITION. The engine's cycle (40_cycle.md R90 to R99) and the choice of whose turn is next (R216);
Step.lean only calls them. -/

namespace Sys2Proof.Machine

/-- Run what the decoder gave for the fetched opcode: the instruction's meaning, or the refusal of an
ambiguous opcode (R94, R97). -/
def runDecoded (op : Word) (s : State) : Except Ambiguity Instr → Host.Outcome State Fault Refusal
  | .ok i => exec i s
  | .error .family0 => .refused (.ambiguousFamily0 op)
  | .error .familyE => .refused (.ambiguousFamilyE op)

/-- `cycle()` (R98): a halted engine changes nothing; otherwise fetch, decode, and run the meaning on
the state with `pc = a` (every meaning advances `pc` itself, R93). -/
def State.cycle (s : State) : Host.Outcome State Fault Refusal :=
  if s.fault ≠ .none then .next s
  else match s.fetch with
    | .error c => .next (s.enterFault c)
    | .ok op => runDecoded op s (decode s.cfg.decodeKey0 s.cfg.decodeKeyE op)

/-- One turn (R216): the next pending one, or the engine's cycle when none is pending. -/
def State.takeTurn (s : State) : Host.Outcome State Fault Refusal :=
  match s.schedule with
  | [] => s.cycle
  | .cycle :: rest => State.cycle { s with schedule := rest }
  | .agent op :: rest => .next (State.perform { s with schedule := rest } op).1

/-- Where the next cycle can fetch: `pc` if both its bytes exist, else 0x200. -/
def State.fetchablePc (s : State) : Word := if 0xFFF < s.pc.toNat + 1 then 0x200 else s.pc

/-- A state whose next step fetches and runs the given opcode: its two bytes stand at `pc`, the engine is
not halted and no other agent's turn is pending. -/
def State.placeOpcode (s : State) (op : Word) : State :=
  let t : State := { s with pc := s.fetchablePc, fault := .none, faultPc := 0, schedule := [] }
  { t with mem := Memory.writeBytes t.cfg.font t.mem t.pc.toNat (bytesOfOpcode op) }

end Sys2Proof.Machine
end

