-- ==== Sys2Proof/Machine/Step.lean ====
section
/-! DEFINITION. One step of the machine: one atomic turn (20_memory.md R59, 60_exceptions.md R216). -/

namespace Sys2Proof.Machine

/-- One atomic step. -/
def step (s : State) : Host.Outcome State Fault Refusal := s.takeTurn

/-- The state with a table word stored where the next step fetches its instruction. -/
def State.withFetchWord (s : State) (nbits w : Nat) : State := s.placeOpcode (tableOpcode nbits w)

end Sys2Proof.Machine
end

