-- ==== Sys2Proof/Safety.lean ====
section
/-! DEFINITION. The terms claims are made in: the ends of a run (60_exceptions.md R218), the runs of the
machine under any interleaving (R216), and the invariant every step keeps. -/

namespace Sys2Proof.Machine

/-- A bad end: a fault has halted the engine (R218 (a)). -/
def State.badEnd (s : State) : Bool := s.fault != .none

/-- A good end: the opcode at `pc` is a jump to `pc` itself (R218 (b)). -/
def State.goodEnd (s : State) : Bool :=
  s.fault == .none &&
    match s.fetch with
    | .ok op => fieldF op == 1#4 && (fieldNNN op).setWidth 16 == s.pc
    | .error _ => false

/-- `Runs s t`: some number of steps leads from `s` to `t`. The pending turns of `s` say how the agents'
steps interleave, so a claim about every `s` is a claim about every interleaving (R216). -/
inductive Runs : State → State → Prop where
  | refl (s : State) : Runs s s
  | tail {s t u : State} : Runs s t → step t = .next u → Runs s u

/-- Memory is in its canonical form and inside the address space. -/
def State.memoryOk (s : State) : Prop := Memory.wf s.cfg.font s.mem = true

/-- `ROMBUF` holds at most `ROM_MAX` bytes (R20). -/
def State.romOk (s : State) : Prop := s.romBuf.length ≤ s.cfg.romMax.toNat

/-- Without a fault `FAULT_PC` is 0; after one the engine still stands at the faulting instruction (R38,
R202 to R204). -/
def State.faultOk (s : State) : Prop :=
  (s.fault = .none → s.faultPc = 0) ∧ (s.fault ≠ .none → s.faultPc = s.pc)

/-- `pc` is at most 0x10FE, JP V0's largest target, and every stack slot at most 0x1000, the largest
return address (R27, R100, R107). -/
def State.pcOk (s : State) : Prop :=
  s.pc.toNat ≤ 0x10FE ∧ ∀ j : Fin 16, (s.stack.get j).toNat ≤ 0x1000

/-- The invariant. `SP ≤ 16`, register widths and the framebuffer's size hold by State's types. -/
def State.Inv (s : State) : Prop := s.memoryOk ∧ s.romOk ∧ s.faultOk ∧ s.pcOk

/-! ### Frames: what an instruction leaves as it was -/

/-- The kinds of state beside the general registers and `pc`, each left alone or changed as a whole. -/
inductive Part where
  /-- `I` -/
  | index
  /-- `STACK` and `SP` -/
  | stack
  /-- `DT` and `ST` -/
  | timers
  /-- every byte of `MEM` -/
  | memory
  /-- `FB` and `DIRTY` -/
  | display
  /-- `KEY` -/
  | keypad
  /-- `ROMBUF` -/
  | rom
  /-- `FAULT` and `FAULT_PC` -/
  | fault
  /-- the count of random draws (the model's field) -/
  | draws
  /-- the parameters and the pending turns (the model's fields) -/
  | outside
deriving DecidableEq, Repr

/-- A kind of state is the same in two states; memory is compared by reading every byte. -/
def Part.Same : Part → State → State → Prop
  | .index, s, t => t.i = s.i
  | .stack, s, t => t.stack = s.stack ∧ t.sp = s.sp
  | .timers, s, t => t.dt = s.dt ∧ t.st = s.st
  | .memory, s, t => ∀ a, t.byteAt a = s.byteAt a
  | .display, s, t => t.fb = s.fb ∧ t.dirty = s.dirty
  | .keypad, s, t => t.key = s.key
  | .rom, s, t => t.romBuf = s.romBuf
  | .fault, s, t => t.fault = s.fault ∧ t.faultPc = s.faultPc
  | .draws, s, t => t.draws = s.draws
  | .outside, s, t => t.cfg = s.cfg ∧ t.schedule = s.schedule

/-- Every kind of state but the listed ones is the same. -/
def SameBut (changed : List Part) (s t : State) : Prop := ∀ p, p ∉ changed → p.Same s t

/-- Every general register but one is the same. -/
def OtherRegsSame (r : Reg) (s t : State) : Prop := ∀ q, q ≠ r → t.readV q = s.readV q

/-- Every general register is the same. -/
def RegsSame (s t : State) : Prop := ∀ q, t.readV q = s.readV q

/-- The fault entry of R202 and R203: `FAULT` and `FAULT_PC` written, and every other field as before
the cycle. -/
def FaultsWith (c : Cause) (s t : State) : Prop := t = { s with fault := c, faultPc := s.pc }

/-- A sprite's pixel: the 1 bits of the `n` bytes at `I`, bit 7 leftmost, start point
`(V[X] mod 64, V[Y] mod 32)`, wrapped in both directions (R181). -/
def SpriteCovers (s : State) (x y : Reg) (n : Nibble) (px : Fin 64) (py : Fin 32) : Prop :=
  ∃ r c : Nat, r < n.toNat ∧ c < 8 ∧ (s.byteAt (s.i.toNat + r)).getLsbD (7 - c) = true ∧
    px.val = ((s.readV x).toNat % 64 + c) % 64 ∧ py.val = ((s.readV y).toNat % 32 + r) % 32

end Sys2Proof.Machine
end

