-- ==== Sys2Proof/Certificates/Slice0/Obligations.lean ====
section
/-! DEFINITION. The statements about this model, for the provers. Each docstring names the rule of the
spec it formalises. An instruction rule's encoding line is a reference to 30_encoding.md and the opcode
table (R11); the statements on decoding say those. -/

open Sys2Proof Sys2Proof.Machine

/-! ### Reset and the cycle -/

/-- R230: construction gives every field R234's value with `ROMBUF` empty, for every value of the
parameters; the machine's reset state is that state under R5's defaults. -/
def Obligations.ConstructionGivesResetValues : Prop :=
  State.reset = State.construct Config.default ∧
  ∀ cfg : Config, ∃ s, s = State.construct cfg ∧
    (∀ r, s.readV r = 0) ∧ s.i = 0 ∧ s.pc = 0x200 ∧ (∀ j, s.stack.get j = 0) ∧ s.sp = 0 ∧
    s.dt = 0 ∧ s.st = 0 ∧ (∀ x y, s.fb.pixel x y = false) ∧ (∀ k, s.keyDown k = false) ∧
    s.dirty = true ∧ s.romBuf = [] ∧ s.fault = .none ∧ s.faultPc = 0 ∧
    (∀ k j : Nat, (hk : k < 16) → (hj : j < 5) → s.byteAt (0x050 + 5 * k + j) = (cfg.font[k])[j]) ∧
    ∀ a, a < 0x050 ∨ 0x0A0 ≤ a → s.byteAt a = 0

/-- R234: what `reset()` leaves, whatever the state before it; `ROMBUF` is copied back and kept. The last
clause, that the parameters, the pending turns and the count of draws stay as they were, is the model's own
choice for its own fields (DESIGN CHOICE: log entries 1, 2 and 3) and no part of R234. -/
def Obligations.ResetRestoresEverythingButRomBuf : Prop :=
  ∀ s : State, s.romOk → ∃ t, t = s.resetOp ∧
    (∀ r, t.readV r = 0) ∧ t.i = 0 ∧ t.pc = 0x200 ∧ (∀ j, t.stack.get j = 0) ∧ t.sp = 0 ∧
    t.dt = 0 ∧ t.st = 0 ∧ (∀ x y, t.fb.pixel x y = false) ∧ (∀ k, t.keyDown k = false) ∧
    t.dirty = true ∧ t.romBuf = s.romBuf ∧ t.fault = .none ∧ t.faultPc = 0 ∧
    (∀ i (h : i < s.romBuf.length), t.byteAt (0x200 + i) = s.romBuf[i]) ∧
    (∀ k j : Nat, (hk : k < 16) → (hj : j < 5) → t.byteAt (0x050 + 5 * k + j) = (s.cfg.font[k])[j]) ∧
    (∀ a, a < 0x050 ∨ (0x0A0 ≤ a ∧ a < 0x200) ∨ 0x200 + s.romBuf.length ≤ a → t.byteAt a = 0) ∧
    Part.outside.Same s t ∧ Part.draws.Same s t

/-- R236: after `reset()` the machine is as after construction and a successful load of the same bytes, but
for the count of draws and the pending turns (the model's own fields, log entries 2 and 3), and its first
cycle, given the same draw, has the same effect. -/
def Obligations.RestartEqualsFreshLoad : Prop :=
  ∀ s : State, s.romOk → ((State.construct s.cfg).load s.romBuf).2 = true ∧
    s.resetOp = { ((State.construct s.cfg).load s.romBuf).1 with draws := s.draws, schedule := s.schedule } ∧
    ∀ (n : Nat) (turns : List Turn), State.cycle { s.resetOp with draws := n, schedule := turns } =
      State.cycle { ((State.construct s.cfg).load s.romBuf).1 with draws := n, schedule := turns }

/-- R90, R94: a step with no pending turn is the engine's cycle, whatever the cycle does (a fetch fault and a
refusal included); it changes nothing when the engine is halted. A step that is the engine's turn runs the
decoded instruction on the state as it stands (the meaning itself advances `pc`, R93). That the engine
cycles when the list of pending turns is empty, and that the turn taken leaves the list, is the model's
choice (DESIGN CHOICE: log entry 3). -/
def Obligations.StepRunsDecodedInstruction : Prop :=
  (∀ s : State, s.schedule = [] → step s = s.cycle) ∧
  (∀ s : State, s.schedule = [] → s.fault ≠ .none → step s = .next s) ∧
  ∀ (s : State) (i : Instr), s.fault = .none → s.pc.toNat + 1 ≤ 0xFFF →
    decode s.cfg.decodeKey0 s.cfg.decodeKeyE (s.byteAt s.pc.toNat ++ s.byteAt (s.pc.toNat + 1)) = .ok i →
    (s.schedule = [] → step s = exec i s) ∧
    ∀ rest, s.schedule = .cycle :: rest → step s = exec i { s with schedule := rest }

/-- R90: a halted engine changes nothing, and otherwise a cycle performs the one instruction fetched and
decoded. -/
def Obligations.CycleHaltsOrPerformsOneInstruction : Prop :=
  (∀ s : State, s.fault ≠ .none → s.cycle = .next s) ∧
  ∀ (s : State) (op : Word) (i : Instr), s.fault = .none → s.fetch = .ok op →
    decode s.cfg.decodeKey0 s.cfg.decodeKeyE op = .ok i → s.cycle = exec i s

/-- R91: the fetch faults exactly when `pc + 1 > 0xFFF`, recording `FAULT_PC = pc` and changing nothing
else; otherwise the opcode is the big-endian word at `pc`, at any alignment. -/
def Obligations.FetchIsBigEndianAndRangeChecked : Prop :=
  ∀ s : State,
    (0xFFF < s.pc.toNat + 1 → s.fault = .none → ∃ t, s.cycle = .next t ∧ FaultsWith .fetchRange s t) ∧
    (s.pc.toNat + 1 ≤ 0xFFF → ∃ op, s.fetch = .ok op ∧
      op.extractLsb' 8 8 = s.byteAt s.pc.toNat ∧ op.extractLsb' 0 8 = s.byteAt (s.pc.toNat + 1))

/-- R97: under `Refuse` a cycle that fetches an opcode of the family's ambiguous set is refused; under the
default keys no fetched opcode is. -/
def Obligations.RefuseRefusesTheAmbiguousSet : Prop :=
  ∀ (s : State) (op : Word), s.fault = .none → s.fetch = .ok op →
    (s.cfg.decodeKey0 = .refuse → fieldF op = 0x0 →
      (fieldN op = 0x0 ∧ fieldKK op ≠ 0xE0 ∨ fieldN op = 0xE ∧ fieldKK op ≠ 0xEE) →
      s.cycle = .refused (.ambiguousFamily0 op)) ∧
    (s.cfg.decodeKeyE = .refuse → fieldF op = 0xE →
      (fieldN op = 0xE ∧ fieldKK op ≠ 0x9E ∨ fieldN op = 0x1 ∧ fieldKK op ≠ 0xA1) →
      s.cycle = .refused (.ambiguousFamilyE op)) ∧
    (s.cfg.decodeKey0 = .lowNibble → s.cfg.decodeKeyE = .lowNibble → ∃ t, s.cycle = .next t)

/-! ### Decoding and encoding -/

/-- R79: outside the ambiguous set every key decodes an opcode alike, and inside it `LowNibble` and
`LowByte` give what R79's four points say, and `Refuse` gives no meaning. -/
def Obligations.KeysDifferOnlyOnTheAmbiguousSet : Prop :=
  (∀ (op : Word) (k k' e e' : DecodeKey),
    ¬(fieldF op = 0x0 ∧ (fieldN op = 0x0 ∧ fieldKK op ≠ 0xE0 ∨ fieldN op = 0xE ∧ fieldKK op ≠ 0xEE)) →
    ¬(fieldF op = 0xE ∧ (fieldN op = 0xE ∧ fieldKK op ≠ 0x9E ∨ fieldN op = 0x1 ∧ fieldKK op ≠ 0xA1)) →
    decode k e op = decode k' e' op) ∧
  (∀ (op : Word) (e : DecodeKey), fieldF op = 0x0 → fieldN op = 0x0 → fieldKK op ≠ 0xE0 →
    decode .lowNibble e op = .ok .cls ∧ decode .lowByte e op = .ok (.unknown0 (fieldNNN op)) ∧
      decode .refuse e op = .error .family0) ∧
  (∀ (op : Word) (e : DecodeKey), fieldF op = 0x0 → fieldN op = 0xE → fieldKK op ≠ 0xEE →
    decode .lowNibble e op = .ok .ret ∧ decode .lowByte e op = .ok (.unknown0 (fieldNNN op)) ∧
      decode .refuse e op = .error .family0) ∧
  (∀ (op : Word) (k : DecodeKey), fieldF op = 0xE → fieldN op = 0xE → fieldKK op ≠ 0x9E →
    decode k .lowNibble op = .ok (.skp (fieldX op)) ∧ decode k .lowByte op = .ok (.unknownE (fieldNNN op)) ∧
      decode k .refuse op = .error .familyE) ∧
  ∀ (op : Word) (k : DecodeKey), fieldF op = 0xE → fieldN op = 0x1 → fieldKK op ≠ 0xA1 →
    decode k .lowNibble op = .ok (.sknp (fieldX op)) ∧ decode k .lowByte op = .ok (.unknownE (fieldNNN op)) ∧
      decode k .refuse op = .error .familyE

/-- Decoding the canonical encoding of a well-formed instruction gives it back, with every operand, under
every choice of the second-level keys. -/
def Obligations.DecodeOfEncodeIsTheInstruction : Prop :=
  ∀ (k e : DecodeKey) (i : Instr), i.wf k e = true → decode k e (encode i) = .ok i

/-- Whatever an opcode decodes to is well formed, and its canonical encoding decodes to the same
instruction. -/
def Obligations.DecodedInstructionsAreWellFormed : Prop :=
  ∀ (k e : DecodeKey) (op : Word) (i : Instr), decode k e op = .ok i →
    i.wf k e = true ∧ decode k e (encode i) = .ok i

/-- Words written out from R77's canonical encodings, one per family, decode to the instructions they
stand for. -/
def Obligations.CanonicalWordsDecode : Prop :=
  decode .lowNibble .lowNibble 0x00E0 = .ok .cls ∧ decode .lowNibble .lowNibble 0x00EE = .ok .ret ∧
  decode .lowNibble .lowNibble 0x1ABC = .ok (.jp 0xABC) ∧
  decode .lowNibble .lowNibble 0x8127 = .ok (.subn 1 2) ∧
  decode .lowNibble .lowNibble 0xD12F = .ok (.drw 1 2 0xF) ∧
  decode .lowNibble .lowNibble 0xE59E = .ok (.skp 5) ∧ decode .lowNibble .lowNibble 0xF365 = .ok (.ldBlock 3)

/-- R76: the families without a second level, and the shifts, ignore the bits their format does not use. -/
def Obligations.UnusedBitsAreIgnored : Prop :=
  ∀ (k e : DecodeKey) (x y : Reg) (n : Nibble),
    decode k e (encodeXYN 0x5 x y n) = .ok (.seReg x y) ∧
    decode k e (encodeXYN 0x9 x y n) = .ok (.sneReg x y) ∧
    decode k e (encodeXYN 0x8 x y 0x6) = .ok (.shr x) ∧ decode k e (encodeXYN 0x8 x y 0xE) = .ok (.shl x)

/-- R95: an unknown opcode of any family, whatever its bits, advances `pc` by 2 and changes nothing else. -/
def Obligations.UnknownOpcodesOnlyAdvancePc : Prop :=
  ∀ (s : State) (i : Instr) (rest : Addr12),
    i ∈ [Instr.unknown0 rest, .unknown8 rest, .unknownE rest, .unknownF rest] →
    ∃ t, exec i s = .next t ∧ t.pc = s.pc + 2 ∧ RegsSame s t ∧ SameBut [] s t

/-! ### Register loads, arithmetic, logic, shifts, random -/

/-- R121, R123, R170: LD Vx, byte; LD Vx, Vy; LD Vx, DT write their one destination and nothing else. -/
def Obligations.RegisterLoadsWriteOnlyVx : Prop :=
  ∀ (s : State) (i : Instr) (x y : Reg) (kk value : Byte),
    (i = .ldImm x kk ∧ value = kk ∨ i = .ldReg x y ∧ value = s.readV y ∨ i = .ldVxDt x ∧ value = s.dt) →
    ∃ t, exec i s = .next t ∧ t.readV x = value ∧ OtherRegsSame x s t ∧ t.pc = s.pc + 2 ∧ SameBut [] s t

/-- R122: ADD Vx, byte adds modulo 256 and writes no flag. -/
def Obligations.AddImmediateWrapsWithoutFlag : Prop :=
  ∀ (s : State) (x : Reg) (kk : Byte), ∃ t, exec (.addImm x kk) s = .next t ∧
    (t.readV x).toNat = ((s.readV x).toNat + kk.toNat) % 256 ∧ OtherRegsSame x s t ∧
    t.pc = s.pc + 2 ∧ SameBut [] s t

/-- R124, R125, R126: the logic operations, bit by bit; VF is not written unless it is the destination. -/
def Obligations.LogicIsBitwiseWithoutFlag : Prop :=
  ∀ (s : State) (x y : Reg),
    (∃ t, exec (.orReg x y) s = .next t ∧
      (∀ j, (t.readV x).getLsbD j = ((s.readV x).getLsbD j || (s.readV y).getLsbD j)) ∧
      OtherRegsSame x s t ∧ t.pc = s.pc + 2 ∧ SameBut [] s t) ∧
    (∃ t, exec (.andReg x y) s = .next t ∧
      (∀ j, (t.readV x).getLsbD j = ((s.readV x).getLsbD j && (s.readV y).getLsbD j)) ∧
      OtherRegsSame x s t ∧ t.pc = s.pc + 2 ∧ SameBut [] s t) ∧
    ∃ t, exec (.xorReg x y) s = .next t ∧
      (∀ j, (t.readV x).getLsbD j = ((s.readV x).getLsbD j ^^ (s.readV y).getLsbD j)) ∧
      OtherRegsSame x s t ∧ t.pc = s.pc + 2 ∧ SameBut [] s t

/-- R127: ADD Vx, Vy writes the carry to VF, then the sum modulo 256 to the destination, from the operands
as they were, under either operand order. -/
def Obligations.AddRegistersCarriesIntoVf : Prop :=
  ∀ (s : State) (x y : Reg), ∃ t, exec (.addReg x y) s = .next t ∧
    (t.readV x).toNat = ((s.readV x).toNat + (s.readV y).toNat) % 256 ∧
    (x ≠ vf → t.readV vf = if 0xFF < (s.readV x).toNat + (s.readV y).toNat then 1 else 0) ∧
    (∀ q, q ≠ x → q ≠ vf → t.readV q = s.readV q) ∧ t.pc = s.pc + 2 ∧ SameBut [] s t

/-- R128 with R119: SUB Vx, Vy writes "no borrow" to VF, then the difference modulo 256; under `Reread` an
operand that is VF is read after the flag was written. -/
def Obligations.SubtractSetsNoBorrow : Prop :=
  ∀ (s : State) (x y : Reg) (f a b : Byte),
    f = (if (s.readV y).toNat < (s.readV x).toNat ∨ s.readV x = s.readV y ∧ s.cfg.subEqualFlag = true
      then 1 else 0) →
    a = (if s.cfg.vfOperandOrder = .reread ∧ x = vf then f else s.readV x) →
    b = (if s.cfg.vfOperandOrder = .reread ∧ y = vf then f else s.readV y) →
    ∃ t, exec (.sub x y) s = .next t ∧ (t.readV x).toNat = (a.toNat + 256 - b.toNat) % 256 ∧
      (x ≠ vf → t.readV vf = f) ∧ (∀ q, q ≠ x → q ≠ vf → t.readV q = s.readV q) ∧
      t.pc = s.pc + 2 ∧ SameBut [] s t

/-- R130 with R119: SUBN Vx, Vy, the same with the operands exchanged. -/
def Obligations.ReverseSubtractSetsNoBorrow : Prop :=
  ∀ (s : State) (x y : Reg) (f a b : Byte),
    f = (if (s.readV x).toNat < (s.readV y).toNat ∨ s.readV x = s.readV y ∧ s.cfg.subEqualFlag = true
      then 1 else 0) →
    a = (if s.cfg.vfOperandOrder = .reread ∧ x = vf then f else s.readV x) →
    b = (if s.cfg.vfOperandOrder = .reread ∧ y = vf then f else s.readV y) →
    ∃ t, exec (.subn x y) s = .next t ∧ (t.readV x).toNat = (b.toNat + 256 - a.toNat) % 256 ∧
      (x ≠ vf → t.readV vf = f) ∧ (∀ q, q ≠ x → q ≠ vf → t.readV q = s.readV q) ∧
      t.pc = s.pc + 2 ∧ SameBut [] s t

/-- R129: SHR Vx halves the register and keeps the bit shifted out in VF; with VF as the destination the
result stands, and under `Reread` it is 0. Its opcode's `Y` is ignored. -/
def Obligations.ShiftRightKeepsTheLostBit : Prop :=
  ∀ (s : State) (x : Reg), ∃ t, exec (.shr x) s = .next t ∧
    (x ≠ vf ∨ s.cfg.vfOperandOrder = .snapshot → (t.readV x).toNat = (s.readV x).toNat / 2) ∧
    (x = vf → s.cfg.vfOperandOrder = .reread → t.readV x = 0) ∧
    (x ≠ vf → (t.readV vf).toNat = (s.readV x).toNat % 2) ∧
    (∀ q, q ≠ x → q ≠ vf → t.readV q = s.readV q) ∧ t.pc = s.pc + 2 ∧ SameBut [] s t ∧
    ∀ k e y, decode k e (encodeXYN 0x8 x y 0x6) = .ok (.shr x)

/-- R131: SHL Vx doubles the register modulo 256 and keeps bit 7 in VF; with VF as the destination the
result stands, and under `Reread` it is twice the flag. Its opcode's `Y` is ignored. -/
def Obligations.ShiftLeftKeepsTheLostBit : Prop :=
  ∀ (s : State) (x : Reg), ∃ t, exec (.shl x) s = .next t ∧
    (x ≠ vf ∨ s.cfg.vfOperandOrder = .snapshot → (t.readV x).toNat = 2 * (s.readV x).toNat % 256) ∧
    (x = vf → s.cfg.vfOperandOrder = .reread → (t.readV x).toNat = 2 * ((s.readV x).toNat / 128)) ∧
    (x ≠ vf → (t.readV vf).toNat = (s.readV x).toNat / 128) ∧
    (∀ q, q ≠ x → q ≠ vf → t.readV q = s.readV q) ∧ t.pc = s.pc + 2 ∧ SameBut [] s t ∧
    ∀ k e y, decode k e (encodeXYN 0x8 x y 0xE) = .ok (.shl x)

/-- From R132 and R9: RND Vx, byte takes one fresh draw, about which nothing is known, and masks it. That
the draw is `Config.drawByte` of the count of draws, and that the count then rises by one, is the model's
choice (DESIGN CHOICE: log entry 2). -/
def Obligations.RandomIsAMaskedFreshDraw : Prop :=
  ∀ (s : State) (x : Reg) (kk : Byte), ∃ t, exec (.rnd x kk) s = .next t ∧
    (∀ j, (t.readV x).getLsbD j = ((Config.drawByte s.draws).getLsbD j && kk.getLsbD j)) ∧
    t.draws = s.draws + 1 ∧ OtherRegsSame x s t ∧ t.pc = s.pc + 2 ∧ SameBut [.draws] s t

/-! ### Control transfer -/

/-- R100: RET pops the return address, at most 0x1000 where the invariant holds, and the slot keeps its
value; with an empty stack it faults. -/
def Obligations.ReturnPopsOrUnderflows : Prop :=
  ∀ s : State,
    (∀ n : Nat, (h : n < 16) → s.sp.val = n + 1 → ∃ t, exec .ret s = .next t ∧ t.sp.val = n ∧
      t.pc = s.stack.get ⟨n, h⟩ ∧ (s.pcOk → t.pc.toNat ≤ 0x1000) ∧ t.stack = s.stack ∧
      RegsSame s t ∧ SameBut [.stack] s t) ∧
    (s.sp = 0 → ∃ t, exec .ret s = .next t ∧ FaultsWith .stackUnderflow s t)

/-- R101, R107: JP addr sets `pc` to the zero-extended address, and a jump to its own address changes
nothing; JP V0, addr adds V0, unmasked, so its target is at most 0x10FE. Nothing else changes, and a target
past 0xFFE makes the next fetch fault. -/
def Obligations.JumpsSetPc : Prop :=
  ∀ (s : State) (nnn : Addr12),
    (∃ t, exec (.jp nnn) s = .next t ∧ t.pc.toNat = nnn.toNat ∧ RegsSame s t ∧ SameBut [] s t ∧
      (nnn.toNat = s.pc.toNat → t = s) ∧ (0xFFE < t.pc.toNat → t.fetch = .error .fetchRange)) ∧
    ∃ t, exec (.jpV0 nnn) s = .next t ∧ t.pc.toNat = (s.readV 0).toNat + nnn.toNat ∧
      t.pc.toNat ≤ 0x10FE ∧ RegsSame s t ∧ SameBut [] s t ∧
      (0xFFE < t.pc.toNat → t.fetch = .error .fetchRange)

/-- R102: CALL addr pushes the address after itself and jumps, and a RET resumes after it (or, after a CALL
at 0xFFE, at 0x1000, where the fetch faults); with a full stack it faults. -/
def Obligations.CallPushesOrOverflows : Prop :=
  ∀ (s : State) (nnn : Addr12),
    (∀ h : s.sp.val < 16, ∃ t, exec (.call nnn) s = .next t ∧ t.sp.val = s.sp.val + 1 ∧
      t.stack.get ⟨s.sp.val, h⟩ = s.pc + 2 ∧
      (∀ j : Fin 16, j.val ≠ s.sp.val → t.stack.get j = s.stack.get j) ∧
      t.pc.toNat = nnn.toNat ∧ RegsSame s t ∧ SameBut [.stack] s t ∧
      ∃ u, exec .ret t = .next u ∧ u.pc = s.pc + 2 ∧ (s.pc = 0xFFE → u.fetch = .error .fetchRange)) ∧
    (s.sp.val = 16 → ∃ t, exec (.call nnn) s = .next t ∧ FaultsWith .stackOverflow s t)

/-- R103, R104: the skips on a byte add exactly 2 more when the condition holds. -/
def Obligations.ByteSkipsSkipOneInstruction : Prop :=
  ∀ (s : State) (x : Reg) (kk : Byte),
    (∃ t, exec (.seImm x kk) s = .next t ∧ t.pc = s.pc + (if s.readV x = kk then 4 else 2) ∧
      RegsSame s t ∧ SameBut [] s t) ∧
    ∃ t, exec (.sneImm x kk) s = .next t ∧ t.pc = s.pc + (if s.readV x = kk then 2 else 4) ∧
      RegsSame s t ∧ SameBut [] s t

/-- R105, R106: the skips on two registers, whatever the low nibble of the opcode. -/
def Obligations.RegisterSkipsSkipOneInstruction : Prop :=
  ∀ (s : State) (x y : Reg),
    (∃ t, exec (.seReg x y) s = .next t ∧ t.pc = s.pc + (if s.readV x = s.readV y then 4 else 2) ∧
      RegsSame s t ∧ SameBut [] s t) ∧
    (∃ t, exec (.sneReg x y) s = .next t ∧ t.pc = s.pc + (if s.readV x = s.readV y then 2 else 4) ∧
      RegsSame s t ∧ SameBut [] s t) ∧
    ∀ k e n, decode k e (encodeXYN 0x5 x y n) = .ok (.seReg x y) ∧
      decode k e (encodeXYN 0x9 x y n) = .ok (.sneReg x y)

/-- A CALL at `a` and a later RET that finds the stack as the CALL left it resume at `a + 2` with the
stack pointer as before (R100, R102). -/
def Obligations.ReturnResumesAfterTheCall : Prop :=
  ∀ (s : State) (nnn : Addr12), s.sp.val < 16 → ∃ t, exec (.call nnn) s = .next t ∧
    ∀ t' : State, t'.sp = t.sp → t'.stack = t.stack →
      ∃ u, exec .ret t' = .next u ∧ u.pc = s.pc + 2 ∧ u.sp = s.sp ∧ u.stack = t.stack

/-- R218 (b): at a good end, a jump to its own address, a step of the engine changes nothing at all. -/
def Obligations.GoodEndIsAFixedPoint : Prop :=
  ∀ s : State, s.goodEnd = true → s.schedule = [] → step s = .next s

/-! ### Index register and memory -/

/-- R51: a data access past 0xFFF raises `MEM_RANGE`; otherwise a read gives the byte, and a write changes
that byte alone. -/
def Obligations.MemoryAccessIsRangeChecked : Prop :=
  ∀ (s : State) (a : Nat) (b : Byte),
    (0xFFF < a → s.memRead a = .error .memRange ∧ s.memWrite a b = .error .memRange) ∧
    (a ≤ 0xFFF → s.memRead a = .ok (s.byteAt a) ∧ ∃ t, s.memWrite a b = .ok t ∧ t.byteAt a = b ∧
      (∀ q, q ≠ a → t.byteAt q = s.byteAt q) ∧ RegsSame s t ∧ t.pc = s.pc ∧ SameBut [.memory] s t)

/-- The memory's canonical form (log entry 4, the model's choice): two memories in it that read alike
everywhere are the same list. -/
def Obligations.CanonicalMemoriesAreDeterminedByReads : Prop :=
  ∀ (font : Font) (m m' : List Host.Cell), Memory.wf font m = true → Memory.wf font m' = true →
    (∀ a, Memory.read font m a = Memory.read font m' a) → m = m'

/-- R150, R152: LD I, addr sets `I` to the zero-extended address; LD F, Vx points it at the digit's glyph,
with no mask. -/
def Obligations.IndexLoadsSetI : Prop :=
  ∀ s : State,
    (∀ nnn, ∃ t, exec (.ldI nnn) s = .next t ∧ t.i.toNat = nnn.toNat ∧
      t.pc = s.pc + 2 ∧ RegsSame s t ∧ SameBut [.index] s t) ∧
    ∀ x, ∃ t, exec (.ldF x) s = .next t ∧ t.i.toNat = 0x050 + 5 * (s.readV x).toNat ∧
      t.pc = s.pc + 2 ∧ RegsSame s t ∧ SameBut [.index] s t

/-- R151: ADD I, Vx adds the register as it was, modulo 2^16; VF is 1 when the exact sum exceeds 0xFFF, and
otherwise 0, or kept when `ADDI_FLAG_CLEAR` is false. -/
def Obligations.AddToIndexFlagsPastFFF : Prop :=
  ∀ (s : State) (x : Reg), ∃ t, exec (.addI x) s = .next t ∧
    t.i.toNat = (s.i.toNat + (s.readV x).toNat) % 65536 ∧
    t.readV vf = (if 0xFFF < s.i.toNat + (s.readV x).toNat then 1
      else if s.cfg.addiFlagClear = true then 0 else s.readV vf) ∧
    OtherRegsSame vf s t ∧ t.pc = s.pc + 2 ∧ SameBut [.index] s t

/-- R153: LD B, Vx stores the three decimal digits at `I`, `I+1`, `I+2`, or faults with no byte written. -/
def Obligations.BcdStoresThreeDigits : Prop :=
  ∀ (s : State) (x : Reg),
    (indexedAddress s.i 2 ≤ 0xFFF → ∃ t, exec (.ldB x) s = .next t ∧
      (t.byteAt (indexedAddress s.i 0)).toNat = (s.readV x).toNat / 100 ∧
      (t.byteAt (indexedAddress s.i 1)).toNat = (s.readV x).toNat / 10 % 10 ∧
      (t.byteAt (indexedAddress s.i 2)).toNat = (s.readV x).toNat % 10 ∧
      (∀ a, a < indexedAddress s.i 0 ∨ indexedAddress s.i 2 < a → t.byteAt a = s.byteAt a) ∧
      t.pc = s.pc + 2 ∧ RegsSame s t ∧ SameBut [.memory] s t) ∧
    (0xFFF < indexedAddress s.i 2 → ∃ t, exec (.ldB x) s = .next t ∧ FaultsWith .memRange s t)

/-- R154: LD [I], Vx stores `V[0]..V[X]` at `I..I+X`, `I` unchanged, or faults with no byte written. -/
def Obligations.BlockStoreWritesTheRegisters : Prop :=
  ∀ (s : State) (x : Reg),
    (indexedAddress s.i x.val ≤ 0xFFF → ∃ t, exec (.stBlock x) s = .next t ∧
      (∀ k : Reg, k ≤ x → t.byteAt (indexedAddress s.i k.val) = s.readV k) ∧
      (∀ a, a < indexedAddress s.i 0 ∨ indexedAddress s.i x.val < a → t.byteAt a = s.byteAt a) ∧
      t.pc = s.pc + 2 ∧ RegsSame s t ∧ SameBut [.memory] s t) ∧
    (0xFFF < indexedAddress s.i x.val → ∃ t, exec (.stBlock x) s = .next t ∧ FaultsWith .memRange s t)

/-- R155: LD Vx, [I] loads `V[0]..V[X]` from `I..I+X`, `I` unchanged, or faults with no register written. -/
def Obligations.BlockLoadReadsTheRegisters : Prop :=
  ∀ (s : State) (x : Reg),
    (indexedAddress s.i x.val ≤ 0xFFF → ∃ t, exec (.ldBlock x) s = .next t ∧
      (∀ k : Reg, k ≤ x → t.readV k = s.byteAt (indexedAddress s.i k.val)) ∧
      (∀ k : Reg, x < k → t.readV k = s.readV k) ∧ t.pc = s.pc + 2 ∧ SameBut [] s t) ∧
    (0xFFF < indexedAddress s.i x.val → ∃ t, exec (.ldBlock x) s = .next t ∧ FaultsWith .memRange s t)

/-- A block store followed by a block load from the same place gives `V[0]..V[X]` back, whatever else
happened to the registers (R154, R155). -/
def Obligations.BlockLoadUndoesBlockStore : Prop :=
  ∀ (s : State) (x : Reg), s.i.toNat + x.val ≤ 0xFFF → ∃ t, exec (.stBlock x) s = .next t ∧
    ∀ t' : State, t'.i = t.i → Part.memory.Same t t' →
      ∃ u, exec (.ldBlock x) t' = .next u ∧ ∀ k : Reg, k ≤ x → u.readV k = s.readV k

/-- R63: the bytes a block store wrote are the opcode a later fetch at that place gives, with nothing in
between, and the engine runs it. -/
def Obligations.StoresAreSeenByTheNextFetch : Prop :=
  ∀ (s : State) (x k k' : Reg) (i : Instr), s.i.toNat + x.val ≤ 0xFFF → s.fault = .none → k < x →
    k'.val = k.val + 1 → decode s.cfg.decodeKey0 s.cfg.decodeKeyE (s.readV k ++ s.readV k') = .ok i →
    ∃ t, exec (.stBlock x) s = .next t ∧
      ∀ t' : State, t'.pc.toNat = s.i.toNat + k.val → Part.memory.Same t t' → Part.outside.Same t t' →
        t'.fault = .none → t'.cycle = exec i t'

/-! ### Timers and keypad -/

/-- R171, R172: LD DT, Vx and LD ST, Vx write their timer alone; a delay of 0 stops the countdown, and the
next tick requests the tone exactly when 1 was written to `ST`. -/
def Obligations.TimerWritesSetTheirTimer : Prop :=
  ∀ (s : State) (x : Reg),
    (∃ t, exec (.ldDt x) s = .next t ∧ t.dt = s.readV x ∧ t.st = s.st ∧ t.pc = s.pc + 2 ∧
      RegsSame s t ∧ SameBut [.timers] s t ∧ (s.readV x = 0 → t.tick.1.dt = 0)) ∧
    ∃ t, exec (.ldSt x) s = .next t ∧ t.st = s.readV x ∧ t.dt = s.dt ∧ t.pc = s.pc + 2 ∧
      RegsSame s t ∧ SameBut [.timers] s t ∧ (t.tick.2 = true ↔ s.readV x = 1)

/-- R173, R174: the key skips test the key `V[X]` names, and fault when it names none. -/
def Obligations.KeySkipsTestTheNamedKey : Prop :=
  ∀ (s : State) (x : Reg),
    (∀ k : Key, (s.readV x).toNat = k.val →
      (∃ t, exec (.skp x) s = .next t ∧ t.pc = s.pc + (if s.keyDown k then 4 else 2) ∧
        RegsSame s t ∧ SameBut [] s t) ∧
      ∃ t, exec (.sknp x) s = .next t ∧ t.pc = s.pc + (if s.keyDown k then 2 else 4) ∧
        RegsSame s t ∧ SameBut [] s t) ∧
    (15 < (s.readV x).toNat →
      (∃ t, exec (.skp x) s = .next t ∧ FaultsWith .keyRange s t) ∧
      ∃ t, exec (.sknp x) s = .next t ∧ FaultsWith .keyRange s t)

/-- R175: LD Vx, K stores the lowest pressed key and goes on, or, with none pressed, stays at its own
address and changes nothing. -/
def Obligations.KeyWaitTakesTheLowestKeyOrStays : Prop :=
  ∀ (s : State) (x : Reg),
    (∀ k : Key, s.keyDown k = true → (∀ j : Key, j < k → s.keyDown j = false) →
      ∃ t, exec (.ldK x) s = .next t ∧ (t.readV x).toNat = k.val ∧ OtherRegsSame x s t ∧
        t.pc = s.pc + 2 ∧ SameBut [] s t) ∧
    ((∀ k : Key, s.keyDown k = false) → exec (.ldK x) s = .next s)

/-! ### Display -/

/-- R180: CLS turns every pixel off and sets `DIRTY`. -/
def Obligations.ClearScreenTurnsEveryPixelOff : Prop :=
  ∀ s : State, ∃ t, exec .cls s = .next t ∧ (∀ x y, t.fb.pixel x y = false) ∧ t.dirty = true ∧
    t.pc = s.pc + 2 ∧ RegsSame s t ∧ SameBut [.display] s t

/-- R181: DRW flips exactly the pixels the sprite covers, sets VF to the collision, sets `DIRTY`; it faults
with nothing changed when a row lies past 0xFFF. -/
def Obligations.DrawFlipsTheSpritePixels : Prop :=
  ∀ (s : State) (x y : Reg) (n : Nibble),
    (s.i.toNat + n.toNat ≤ 0x1000 ∨ n = 0 → ∃ t, exec (.drw x y n) s = .next t ∧
      (∀ px py, SpriteCovers s x y n px py → t.fb.pixel px py = !s.fb.pixel px py) ∧
      (∀ px py, ¬SpriteCovers s x y n px py → t.fb.pixel px py = s.fb.pixel px py) ∧
      ((∃ px py, SpriteCovers s x y n px py ∧ s.fb.pixel px py = true) → t.readV vf = 1) ∧
      ((∀ px py, SpriteCovers s x y n px py → s.fb.pixel px py = false) → t.readV vf = 0) ∧
      t.dirty = true ∧ OtherRegsSame vf s t ∧ t.pc = s.pc + 2 ∧ SameBut [.display] s t) ∧
    (0x1000 < s.i.toNat + n.toNat → n ≠ 0 → ∃ t, exec (.drw x y n) s = .next t ∧ FaultsWith .memRange s t)

/-- From R181, as R182 and conflict C9 read it: the same sprite drawn twice restores the framebuffer; the
first draw's VF is 0 exactly when no covered pixel was lit, the second's is 1 exactly when a covered pixel
was unlit before the first, and so, on pixels that were all unlit, exactly when the sprite has a 1 bit.
(R182's sentence on the second VF without that premise does not follow from R181: log entry 9.) -/
def Obligations.DrawingTwiceRestoresTheFramebuffer : Prop :=
  ∀ (s : State) (x y : Reg) (n : Nibble), x ≠ vf → y ≠ vf → s.i.toNat + n.toNat ≤ 0x1000 →
    ∃ t u, exec (.drw x y n) s = .next t ∧ exec (.drw x y n) t = .next u ∧ u.fb = s.fb ∧
      (t.readV vf = 0 ↔ ∀ px py, SpriteCovers s x y n px py → s.fb.pixel px py = false) ∧
      (u.readV vf = 1 ↔ ∃ px py, SpriteCovers s x y n px py ∧ s.fb.pixel px py = false) ∧
      (t.readV vf = 0 → (u.readV vf = 1 ↔
        ∃ r c : Nat, r < n.toNat ∧ c < 8 ∧ (s.byteAt (s.i.toNat + r)).getLsbD c = true))

/-! ### The timer's tick and the host's operations -/

/-- R211, R212: a tick counts both timers down by one, never below 0, whatever `FAULT` holds, and requests
the tone exactly when it moves `ST` from 1 to 0. -/
def Obligations.TickCountsDownAndSignalsOnce : Prop :=
  ∀ s : State, (s.tick.1).dt.toNat = s.dt.toNat - 1 ∧ (s.tick.1).st.toNat = s.st.toNat - 1 ∧
    (s.tick.2 = true ↔ s.st.toNat = 1 ∧ (s.tick.1).st.toNat = 0) ∧ RegsSame s s.tick.1 ∧
    (s.tick.1).pc = s.pc ∧ SameBut [.timers] s s.tick.1

/-- R232, R233: a load copies the ROM to 0x200 onward and into `ROMBUF` and changes nothing else, or, when
the ROM is longer than `ROM_MAX`, changes nothing at all. -/
def Obligations.LoadCopiesTheRomOrDoesNothing : Prop :=
  ∀ (s : State) (bytes : List Byte),
    (bytes.length ≤ s.cfg.romMax.toNat → ∃ t, s.load bytes = (t, true) ∧
      (∀ i (h : i < bytes.length), t.byteAt (0x200 + i) = bytes[i]) ∧
      (∀ a, a < 0x200 ∨ 0x200 + bytes.length ≤ a → t.byteAt a = s.byteAt a) ∧ t.romBuf = bytes ∧
      RegsSame s t ∧ t.pc = s.pc ∧ SameBut [.memory, .rom] s t) ∧
    (s.cfg.romMax.toNat < bytes.length → s.load bytes = (s, false))

/-- A pending turn of the timer or the host (log entry 3, the model's choice of how turns are held) is the
next step, applied to the state without that turn; it runs even when the engine is halted (R204, R216). -/
def Obligations.PendingTurnsAreTakenInOrder : Prop :=
  ∀ (s : State) (rest : List Turn),
    (∀ op, s.schedule = .agent op :: rest →
      step s = .next (State.perform { s with schedule := rest } op).1) ∧
    (s.schedule = .cycle :: rest → step s = State.cycle { s with schedule := rest })

/-- `key`, `present` and `status` of R215: the one key bit, the snapshot and the clearing of `DIRTY`, and a
read that changes nothing. -/
def Obligations.KeyPresentAndStatusDoOnlyThat : Prop :=
  ∀ (s : State) (k : Key) (pressed : Bool),
    (∃ t, s.perform (.key k pressed) = (t, .silent) ∧ t.keyDown k = pressed ∧
      (∀ j, j ≠ k → t.keyDown j = s.keyDown j) ∧ RegsSame s t ∧ t.pc = s.pc ∧ SameBut [.keypad] s t) ∧
    (∃ t, s.perform .present = (t, .frame s.fb s.dirty) ∧ t.dirty = false ∧ t.fb = s.fb ∧
      RegsSame s t ∧ t.pc = s.pc ∧ SameBut [.display] s t) ∧
    s.perform .status = (s, .faultStatus s.fault s.faultPc)

/-! ### Whole-machine rules -/

/-- Every instruction, on every state, answers a next state: no meaning ends in the outcome `fault` or
`refused`. Instructions do raise the faults of R201; that such a fault is a next state, so that the type
`Fault` is empty, is the model's reading of R202 to R205 (DEDUCED: log entry 5). -/
def Obligations.EveryInstructionAnswersANextState : Prop :=
  ∀ (i : Instr) (s : State), ∃ t, exec i s = .next t

/-- R203, R96: after an instruction, and after a cycle, fetch faults included, either `FAULT` and `FAULT_PC`
are as before, or the state is the one before it with those two written, `FAULT_PC` the instruction's own
address. -/
def Obligations.FaultsArePrecise : Prop :=
  (∀ (i : Instr) (s t : State), exec i s = .next t →
    Part.fault.Same s t ∨ ∃ c, c ≠ .none ∧ FaultsWith c s t) ∧
  ∀ s t : State, s.cycle = .next t → Part.fault.Same s t ∨ ∃ c, c ≠ .none ∧ FaultsWith c s t

/-- R201: the causes and their codes; which instruction, or the fetch, raises which cause, and exactly when;
every fault records the address of the faulting instruction. -/
def Obligations.CausesAreRaisedExactlyWhenListed : Prop :=
  [Cause.none, .fetchRange, .memRange, .stackOverflow, .stackUnderflow, .keyRange].map Cause.code =
    [0, 1, 2, 3, 4, 5] ∧
  (∀ s t : State, s.fault = .none → s.cycle = .next t →
    (t.fault = .fetchRange ↔ 0xFFF < s.pc.toNat + 1) ∧ (t.fault ≠ .none → t.faultPc = s.pc)) ∧
  ∀ (i : Instr) (s t : State), s.fault = .none → exec i s = .next t →
    t.fault ≠ .fetchRange ∧ (t.fault ≠ .none → t.faultPc = s.pc) ∧
    (t.fault = .memRange ↔
      (∃ x y n, i = .drw x y n ∧ n ≠ 0 ∧ 0xFFF < s.i.toNat + n.toNat - 1) ∨
      (∃ x, i = .ldB x ∧ 0xFFF < s.i.toNat + 2) ∨
      ∃ x : Reg, (i = .stBlock x ∨ i = .ldBlock x) ∧ 0xFFF < s.i.toNat + x.val) ∧
    (t.fault = .stackOverflow ↔ ∃ nnn, i = .call nnn ∧ s.sp.val = 16) ∧
    (t.fault = .stackUnderflow ↔ i = .ret ∧ s.sp.val = 0) ∧
    (t.fault = .keyRange ↔ ∃ x, (i = .skp x ∨ i = .sknp x) ∧ 15 < (s.readV x).toNat)

/-- R50: no instruction but LD B and LD [I] changes any byte of memory. -/
def Obligations.OnlyTwoInstructionsWriteMemory : Prop :=
  ∀ (i : Instr) (s t : State), exec i s = .next t → (∀ x, i ≠ .ldB x) → (∀ x, i ≠ .stBlock x) →
    Part.memory.Same s t

/-- R35, R37: no instruction writes `KEY` or `ROMBUF`; nor does one change the parameters or the pending
turns. -/
def Obligations.NoInstructionWritesKeypadOrRomBuffer : Prop :=
  ∀ (i : Instr) (s t : State), exec i s = .next t →
    Part.keypad.Same s t ∧ Part.rom.Same s t ∧ Part.outside.Same s t

/-- R24, R28, R33: only LD I, ADD I and LD F write `I`; only CALL writes a stack slot, and only CALL and RET
move `SP`; only CLS and DRW write `FB`. -/
def Obligations.OnlyTheNamedInstructionsWriteIndexStackAndScreen : Prop :=
  ∀ (i : Instr) (s t : State), exec i s = .next t →
    ((∀ nnn, i ≠ .ldI nnn) → (∀ x, i ≠ .addI x) → (∀ x, i ≠ .ldF x) → t.i = s.i) ∧
    ((∀ nnn, i ≠ .call nnn) → t.stack = s.stack ∧ (i ≠ .ret → t.sp = s.sp)) ∧
    (i ≠ .cls → (∀ x y n, i ≠ .drw x y n) → t.fb = s.fb ∧ t.dirty = s.dirty)

/-- R30, R31, conflict C6: no instruction but LD DT changes `DT`, none but LD ST changes `ST`; an
instruction does not count a timer down. -/
def Obligations.InstructionsDoNotCountTimersDown : Prop :=
  ∀ (i : Instr) (s t : State), exec i s = .next t →
    ((∀ x, i ≠ .ldDt x) → t.dt = s.dt) ∧ ((∀ x, i ≠ .ldSt x) → t.st = s.st)

/-- R41: an instruction outside R41's table whose destination registers do not include VF leaves VF
unchanged. -/
def Obligations.OnlyListedInstructionsWriteVf : Prop :=
  ∀ (i : Instr) (s t : State), exec i s = .next t →
    (∀ x y, i ≠ .addReg x y) → (∀ x y, i ≠ .sub x y) → (∀ x, i ≠ .shr x) → (∀ x y, i ≠ .subn x y) →
    (∀ x, i ≠ .shl x) → (∀ x y n, i ≠ .drw x y n) → (∀ x, i ≠ .addI x) →
    (∀ kk, i ≠ .ldImm vf kk ∧ i ≠ .addImm vf kk ∧ i ≠ .rnd vf kk) →
    (∀ y, i ≠ .ldReg vf y ∧ i ≠ .orReg vf y ∧ i ≠ .andReg vf y ∧ i ≠ .xorReg vf y) →
    i ≠ .ldVxDt vf → i ≠ .ldK vf → i ≠ .ldBlock vf → t.readV vf = s.readV vf

/-- R37 ("no instruction can observe it"), R36 and R31 ("no instruction reads it"): two states that differ
only in `ROMBUF`, `DIRTY` and `ST` go to states that differ only in those. -/
def Obligations.RomBufferDirtyAndSoundTimerAreUnobservable : Prop :=
  ∀ (i : Instr) (s t : State) (rom : List Byte) (dirty : Bool) (st : Byte), exec i s = .next t →
    ∃ dirty' st', exec i { s with romBuf := rom, dirty := dirty, st := st } =
      .next { t with romBuf := rom, dirty := dirty', st := st' }

/-- The invariant of Safety.lean holds at construction, under every value of the parameters. -/
def Obligations.InvariantHoldsAtConstruction : Prop :=
  ∀ cfg : Config, (State.construct cfg).Inv

/-- Every step, of the engine, the timer or the host, keeps the invariant: memory stays canonical and inside
the address space (R50), `ROMBUF` within `ROM_MAX` (R20), `FAULT_PC` with `FAULT` (R38), `pc` at most 0x10FE
and every stack slot at most 0x1000 (R27, R100). -/
def Obligations.EveryStepKeepsTheInvariant : Prop :=
  ∀ s t : State, s.Inv → step s = .next t → t.Inv

/-- Once the engine has halted, no step but the host's reset moves `pc`, changes a register, or clears the
fault (R204, R205). -/
def Obligations.OnlyResetLeavesAFault : Prop :=
  ∀ s t : State, s.fault ≠ .none → step s = .next t →
    (∀ rest, s.schedule ≠ .agent .reset :: rest) →
    t.fault = s.fault ∧ t.faultPc = s.faultPc ∧ t.pc = s.pc ∧ RegsSame s t ∧ t.i = s.i ∧
      Part.stack.Same s t ∧ t.fb = s.fb ∧ Part.draws.Same s t
end

