-- ==== Sys2Proof/Laws/Decode.lean ====
section
/-! SUPPORT. The opcode fields of an assembled opcode, for each format of R72. -/

namespace Sys2Proof

variable (f n : Nibble) (x y : Reg) (kk : Byte) (nnn : Addr12)

theorem regField_toFin (x : Reg) : (regField x).toFin = x :=
  Fin.ext (Nat.mod_eq_of_lt x.isLt)

theorem append_getLsbD {w v : Nat} (a : BitVec w) (b : BitVec v) (i : Nat) :
    (a ++ b).getLsbD i = if i < v then b.getLsbD i else a.getLsbD (i - v) := by
  rw [BitVec.getLsbD_append]

theorem encodeA_getLsbD (i : Nat) :
    (encodeA f nnn).getLsbD i = if i < 12 then nnn.getLsbD i else f.getLsbD (i - 12) :=
  append_getLsbD f nnn i

theorem encodeXK_getLsbD (i : Nat) :
    (encodeXK f x kk).getLsbD i = if i < 8 then kk.getLsbD i
      else if i - 8 < 4 then (regField x).getLsbD (i - 8) else f.getLsbD (i - 8 - 4) := by
  have h := append_getLsbD (f ++ regField x) kk i
  rwa [append_getLsbD f (regField x)] at h

theorem encodeXYN_getLsbD (i : Nat) :
    (encodeXYN f x y n).getLsbD i = if i < 4 then n.getLsbD i
      else if i - 4 < 4 then (regField y).getLsbD (i - 4)
      else if i - 4 - 4 < 4 then (regField x).getLsbD (i - 4 - 4) else f.getLsbD (i - 4 - 4 - 4) := by
  have h := append_getLsbD (f ++ regField x ++ regField y) n i
  rwa [append_getLsbD (f ++ regField x) (regField y), append_getLsbD f (regField x)] at h

@[simp] theorem fieldF_encodeA : fieldF (encodeA f nnn) = f := by
  apply BitVec.eq_of_getLsbD_eq
  intro i hi
  simp [fieldF, encodeA_getLsbD, hi]

@[simp] theorem fieldNNN_encodeA : fieldNNN (encodeA f nnn) = nnn := by
  apply BitVec.eq_of_getLsbD_eq
  intro i hi
  simp [fieldNNN, encodeA_getLsbD, hi]

@[simp] theorem fieldN_encodeA : fieldN (encodeA f nnn) = nnn.setWidth 4 := by
  apply BitVec.eq_of_getLsbD_eq
  intro i hi
  have h : i < 12 := by omega
  simp [fieldN, encodeA_getLsbD, hi, h]

@[simp] theorem fieldKK_encodeA : fieldKK (encodeA f nnn) = nnn.setWidth 8 := by
  apply BitVec.eq_of_getLsbD_eq
  intro i hi
  have h : i < 12 := by omega
  simp [fieldKK, encodeA_getLsbD, hi, h]

@[simp] theorem fieldF_encodeXK : fieldF (encodeXK f x kk) = f := by
  apply BitVec.eq_of_getLsbD_eq
  intro i hi
  have h : 12 + i - 8 - 4 = i := by omega
  have h' : ¬ 12 + i - 8 < 4 := by omega
  have h'' : ¬ 12 + i < 8 := by omega
  simp [fieldF, encodeXK_getLsbD, hi, h, h', h'']

@[simp] theorem fieldX_encodeXK : fieldX (encodeXK f x kk) = x := by
  have : (encodeXK f x kk).extractLsb' 8 4 = regField x := by
    apply BitVec.eq_of_getLsbD_eq
    intro i hi
    simp [encodeXK_getLsbD, hi]
  rw [fieldX, this, regField_toFin]

@[simp] theorem fieldKK_encodeXK : fieldKK (encodeXK f x kk) = kk := by
  apply BitVec.eq_of_getLsbD_eq
  intro i hi
  simp [fieldKK, encodeXK_getLsbD, hi]

@[simp] theorem fieldN_encodeXK : fieldN (encodeXK f x kk) = kk.setWidth 4 := by
  apply BitVec.eq_of_getLsbD_eq
  intro i hi
  have h : i < 8 := by omega
  simp [fieldN, encodeXK_getLsbD, hi, h]

@[simp] theorem fieldF_encodeXYN : fieldF (encodeXYN f x y n) = f := by
  apply BitVec.eq_of_getLsbD_eq
  intro i hi
  have h1 : ¬ 12 + i < 4 := by omega
  have h2 : ¬ 12 + i - 4 < 4 := by omega
  have h3 : ¬ 12 + i - 4 - 4 < 4 := by omega
  have h : 12 + i - 4 - 4 - 4 = i := by omega
  simp [fieldF, encodeXYN_getLsbD, hi, h, h1, h2, h3]

@[simp] theorem fieldX_encodeXYN : fieldX (encodeXYN f x y n) = x := by
  have : (encodeXYN f x y n).extractLsb' 8 4 = regField x := by
    apply BitVec.eq_of_getLsbD_eq
    intro i hi
    have h1 : ¬ 8 + i < 4 := by omega
    have h2 : ¬ 8 + i - 4 < 4 := by omega
    have h3 : 8 + i - 4 - 4 < 4 := by omega
    have h : 8 + i - 4 - 4 = i := by omega
    simp [encodeXYN_getLsbD, hi, h, h1, h2]
  rw [fieldX, this, regField_toFin]

@[simp] theorem fieldY_encodeXYN : fieldY (encodeXYN f x y n) = y := by
  have : (encodeXYN f x y n).extractLsb' 4 4 = regField y := by
    apply BitVec.eq_of_getLsbD_eq
    intro i hi
    simp [encodeXYN_getLsbD, hi]
  rw [fieldY, this, regField_toFin]

@[simp] theorem fieldN_encodeXYN : fieldN (encodeXYN f x y n) = n := by
  apply BitVec.eq_of_getLsbD_eq
  intro i hi
  simp [fieldN, encodeXYN_getLsbD, hi]

/-- An opcode's two bytes put together again are the opcode (R55). -/
theorem opcodeOfBytes_bytes (op : Word) :
    opcodeOfBytes (op.extractLsb' 8 8) (op.extractLsb' 0 8) = op := by
  apply BitVec.eq_of_getLsbD_eq
  intro i hi
  unfold opcodeOfBytes
  rw [append_getLsbD]
  by_cases h : i < 8
  · simp [h]
  · have h1 : i - 8 < 8 := by omega
    have h2 : 8 + (i - 8) = i := by omega
    simp [h, h1, h2]

/-- N is the low nibble of KK (R71). -/
theorem fieldN_eq_fieldKK (op : Word) : fieldN op = (fieldKK op).setWidth 4 := by
  apply BitVec.eq_of_getLsbD_eq
  intro i hi
  have h : i < 8 := by omega
  simp [fieldN, fieldKK, hi, h]

/-- The low nibble of NNN is N (R71). -/
theorem fieldNNN_setWidth_four (op : Word) : (fieldNNN op).setWidth 4 = fieldN op := by
  apply BitVec.eq_of_getLsbD_eq
  intro i hi
  have h : i < 12 := by omega
  simp [fieldN, fieldNNN, hi, h]

/-- The low byte of NNN is KK (R71). -/
theorem fieldNNN_setWidth_eight (op : Word) : (fieldNNN op).setWidth 8 = fieldKK op := by
  apply BitVec.eq_of_getLsbD_eq
  intro i hi
  have h : i < 12 := by omega
  simp [fieldKK, fieldNNN, hi, h]

end Sys2Proof
end

