-- ==== Sys2Proof/Laws/Memory.lean ====
section
/-! SUPPORT. The laws of memory: a read after a write, and that every write keeps the canonical form. -/

namespace Sys2Proof.Machine

variable {font : Font} {m m' : List Host.Cell} {a q : Nat} {b : Byte} {lo : Option Nat}

/-! ### Reads after writes -/

theorem Memory.find?_erase (m : List Host.Cell) (a q : Nat) :
    Memory.find? (Memory.erase m a) q = if q = a then none else Memory.find? m q := by
  induction m with
  | nil => simp [Memory.erase, Memory.find?]
  | cons c rest ih =>
    obtain ⟨k, w⟩ := c
    by_cases hk : k = a
    · subst hk
      rw [Memory.erase, if_pos rfl, ih]
      by_cases hq : q = k
      · simp [hq]
      · simp [Memory.find?, hq, Ne.symm hq]
    · rw [Memory.erase, if_neg hk, Memory.find?, Memory.find?, ih]
      by_cases hq : q = a
      · subst hq; simp [hk]
      · simp [hq]

theorem Memory.find?_insert (m : List Host.Cell) (a q : Nat) (b : Byte) :
    Memory.find? (Memory.insert m a b) q = if q = a then some b else Memory.find? m q := by
  induction m with
  | nil =>
    by_cases hq : q = a
    · simp [Memory.insert, Memory.find?, hq]
    · simp [Memory.insert, Memory.find?, hq, Ne.symm hq]
  | cons c rest ih =>
    obtain ⟨k, w⟩ := c
    by_cases hq : q = a
    · subst hq
      rcases Nat.lt_trichotomy q k with h | h | h
      · simp [Memory.insert, Memory.find?, h]
      · simp [Memory.insert, Memory.find?, h]
      · simp [Memory.insert, Memory.find?, ih, Nat.not_lt_of_lt h, Nat.ne_of_gt h, Nat.ne_of_lt h]
    · rcases Nat.lt_trichotomy a k with h | h | h
      · simp [Memory.insert, Memory.find?, h, hq, Ne.symm hq]
      · subst h; simp [Memory.insert, Memory.find?, hq, Ne.symm hq]
      · simp [Memory.insert, Memory.find?, ih, Nat.not_lt_of_lt h, Nat.ne_of_gt h, hq]

theorem Memory.read_write (font : Font) (m : List Host.Cell) (a q : Nat) (b : Byte) :
    Memory.read font (Memory.write font m a b) q = if q = a then b else Memory.read font m q := by
  unfold Memory.read Memory.write
  split
  next h => rw [Memory.find?_erase]; split <;> simp_all
  next h => rw [Memory.find?_insert]; split <;> simp

/-- Writing bytes from `a` on changes exactly the bytes at `a .. a + length - 1`. -/
theorem Memory.read_writeBytes (font : Font) (bs : List Byte) (m : List Host.Cell) (a q : Nat) :
    Memory.read font (Memory.writeBytes font m a bs) q =
      if a ≤ q ∧ q < a + bs.length then bs.getD (q - a) 0 else Memory.read font m q := by
  induction bs generalizing m a with
  | nil => simp [Memory.writeBytes]
  | cons b bs ih =>
    rw [Memory.writeBytes, ih, Memory.read_write]
    rcases Nat.lt_trichotomy q a with h | h | h
    · rw [if_neg (by omega), if_neg (by omega), if_neg (by omega)]
    · subst h; simp
    · obtain ⟨d, rfl⟩ : ∃ d, q = a + 1 + d := ⟨q - (a + 1), by omega⟩
      have e : a + 1 + d - a = d + 1 := by omega
      by_cases hb : d < bs.length
      · rw [if_pos (by omega), if_pos (by simp; omega), e]; simp
      · rw [if_neg (by omega), if_neg (by omega), if_neg (by simp; omega)]

/-! ### The canonical form -/

theorem Memory.wfAbove_cons {k : Nat} {w : Byte} {rest : List Host.Cell} :
    Memory.wfAbove font lo ((k, w) :: rest) = true ↔
      (∀ l, lo = some l → l < k) ∧ k < memSize ∧ w ≠ blankByte font k ∧
        Memory.wfAbove font (some k) rest = true := by
  cases lo <;> simp [Memory.wfAbove, and_assoc]

theorem Memory.wfAbove_weaken {l : Nat} (h : Memory.wfAbove font (some l) m = true)
    (hl : ∀ l', lo = some l' → l' ≤ l) : Memory.wfAbove font lo m = true := by
  cases m with
  | nil => rfl
  | cons c rest =>
    obtain ⟨k, w⟩ := c
    rw [Memory.wfAbove_cons] at h ⊢
    exact ⟨fun l' e => lt_of_le_of_lt (hl l' e) (h.1 l rfl), h.2⟩

theorem Memory.wfAbove_erase (h : Memory.wfAbove font lo m = true) (a : Nat) :
    Memory.wfAbove font lo (Memory.erase m a) = true := by
  induction m generalizing lo with
  | nil => exact h
  | cons c rest ih =>
    obtain ⟨k, w⟩ := c
    rw [Memory.wfAbove_cons] at h
    unfold Memory.erase
    split
    · exact Memory.wfAbove_weaken (ih h.2.2.2) fun l' e => (h.1 l' e).le
    · exact Memory.wfAbove_cons.2 ⟨h.1, h.2.1, h.2.2.1, ih h.2.2.2⟩

theorem Memory.wfAbove_insert (h : Memory.wfAbove font lo m = true) (hlo : ∀ l, lo = some l → l < a)
    (ha : a < memSize) (hb : b ≠ blankByte font a) :
    Memory.wfAbove font lo (Memory.insert m a b) = true := by
  induction m generalizing lo with
  | nil => exact Memory.wfAbove_cons.2 ⟨hlo, ha, hb, rfl⟩
  | cons c rest ih =>
    obtain ⟨k, w⟩ := c
    rw [Memory.wfAbove_cons] at h
    unfold Memory.insert
    split
    next hk =>
      exact Memory.wfAbove_cons.2 ⟨hlo, ha, hb, Memory.wfAbove_cons.2
        ⟨fun l e => by cases e; exact hk, h.2⟩⟩
    next hk =>
      split
      next he => exact Memory.wfAbove_cons.2 ⟨hlo, ha, hb, he ▸ h.2.2.2⟩
      next he =>
        exact Memory.wfAbove_cons.2 ⟨h.1, h.2.1, h.2.2.1,
          ih h.2.2.2 fun l e => by cases e; omega⟩

theorem Memory.wf_nil (font : Font) : Memory.wf font [] = true := rfl

theorem Memory.wf_write (h : Memory.wf font m = true) (ha : a < memSize) (b : Byte) :
    Memory.wf font (Memory.write font m a b) = true := by
  unfold Memory.write
  split
  · exact Memory.wfAbove_erase h a
  next hb => exact Memory.wfAbove_insert h (fun l e => by cases e) ha hb

theorem Memory.wf_writeBytes {bs : List Byte} (h : Memory.wf font m = true)
    (ha : a + bs.length ≤ memSize) : Memory.wf font (Memory.writeBytes font m a bs) = true := by
  induction bs generalizing m a with
  | nil => exact h
  | cons b bs ih =>
    simp only [List.length_cons] at ha
    exact ih (Memory.wf_write h (by omega) b) (by omega)

/-- In canonical form nothing is listed at or below the bound. -/
theorem Memory.find?_eq_none_of_wfAbove {l : Nat} (h : Memory.wfAbove font (some l) m = true)
    (hq : q ≤ l) : Memory.find? m q = none := by
  induction m generalizing l with
  | nil => rfl
  | cons c rest ih =>
    obtain ⟨k, w⟩ := c
    rw [Memory.wfAbove_cons] at h
    have hk := h.1 l rfl
    rw [Memory.find?, if_neg (by omega)]
    exact ih h.2.2.2 (by omega)

/-- A canonical memory lists no blank value. -/
theorem Memory.find?_ne_blank (h : Memory.wfAbove font lo m = true) :
    Memory.find? m q ≠ some (blankByte font q) := by
  induction m generalizing lo with
  | nil => simp [Memory.find?]
  | cons c rest ih =>
    obtain ⟨k, w⟩ := c
    rw [Memory.wfAbove_cons] at h
    by_cases hk : k = q
    · subst hk; simpa [Memory.find?] using h.2.2.1
    · simpa [Memory.find?, hk] using ih h.2.2.2

/-- A canonical memory's listed cells are determined by its reads. -/
theorem Memory.find?_eq_of_read_eq (h : Memory.wf font m = true) (h' : Memory.wf font m' = true)
    (he : Memory.read font m q = Memory.read font m' q) : Memory.find? m q = Memory.find? m' q := by
  have n := Memory.find?_ne_blank (q := q) h
  have n' := Memory.find?_ne_blank (q := q) h'
  unfold Memory.read at he
  revert n n' he
  cases Memory.find? m q <;> cases Memory.find? m' q <;> simp +contextual [eq_comm]

end Sys2Proof.Machine
end

