-- ==== Sys2Proof/Laws/State.lean ====
section
/-! SUPPORT. One lemma per field and update: what each named update leaves as it was, and what it
writes. They let later proofs work without unfolding a record update. -/

namespace Sys2Proof.Machine

variable (s : State)

/-! ### writeV -/

@[simp] theorem State.writeV_cfg (r : Reg) (b : Byte) : (s.writeV r b).cfg = s.cfg := rfl
@[simp] theorem State.writeV_i (r : Reg) (b : Byte) : (s.writeV r b).i = s.i := rfl
@[simp] theorem State.writeV_pc (r : Reg) (b : Byte) : (s.writeV r b).pc = s.pc := rfl
@[simp] theorem State.writeV_stack (r : Reg) (b : Byte) : (s.writeV r b).stack = s.stack := rfl
@[simp] theorem State.writeV_sp (r : Reg) (b : Byte) : (s.writeV r b).sp = s.sp := rfl
@[simp] theorem State.writeV_dt (r : Reg) (b : Byte) : (s.writeV r b).dt = s.dt := rfl
@[simp] theorem State.writeV_st (r : Reg) (b : Byte) : (s.writeV r b).st = s.st := rfl
@[simp] theorem State.writeV_mem (r : Reg) (b : Byte) : (s.writeV r b).mem = s.mem := rfl
@[simp] theorem State.writeV_fb (r : Reg) (b : Byte) : (s.writeV r b).fb = s.fb := rfl
@[simp] theorem State.writeV_key (r : Reg) (b : Byte) : (s.writeV r b).key = s.key := rfl
@[simp] theorem State.writeV_dirty (r : Reg) (b : Byte) : (s.writeV r b).dirty = s.dirty := rfl
@[simp] theorem State.writeV_romBuf (r : Reg) (b : Byte) : (s.writeV r b).romBuf = s.romBuf := rfl
@[simp] theorem State.writeV_fault (r : Reg) (b : Byte) : (s.writeV r b).fault = s.fault := rfl
@[simp] theorem State.writeV_faultPc (r : Reg) (b : Byte) : (s.writeV r b).faultPc = s.faultPc := rfl
@[simp] theorem State.writeV_draws (r : Reg) (b : Byte) : (s.writeV r b).draws = s.draws := rfl
@[simp] theorem State.writeV_schedule (r : Reg) (b : Byte) : (s.writeV r b).schedule = s.schedule := rfl
@[simp] theorem State.writeV_byteAt (r : Reg) (b : Byte) (q : Nat) : (s.writeV r b).byteAt q = s.byteAt q := by
  simp [State.byteAt]

/-! ### writeI -/

@[simp] theorem State.writeI_cfg (w : Word) : (s.writeI w).cfg = s.cfg := rfl
@[simp] theorem State.writeI_v (w : Word) : (s.writeI w).v = s.v := rfl
@[simp] theorem State.writeI_pc (w : Word) : (s.writeI w).pc = s.pc := rfl
@[simp] theorem State.writeI_stack (w : Word) : (s.writeI w).stack = s.stack := rfl
@[simp] theorem State.writeI_sp (w : Word) : (s.writeI w).sp = s.sp := rfl
@[simp] theorem State.writeI_dt (w : Word) : (s.writeI w).dt = s.dt := rfl
@[simp] theorem State.writeI_st (w : Word) : (s.writeI w).st = s.st := rfl
@[simp] theorem State.writeI_mem (w : Word) : (s.writeI w).mem = s.mem := rfl
@[simp] theorem State.writeI_fb (w : Word) : (s.writeI w).fb = s.fb := rfl
@[simp] theorem State.writeI_key (w : Word) : (s.writeI w).key = s.key := rfl
@[simp] theorem State.writeI_dirty (w : Word) : (s.writeI w).dirty = s.dirty := rfl
@[simp] theorem State.writeI_romBuf (w : Word) : (s.writeI w).romBuf = s.romBuf := rfl
@[simp] theorem State.writeI_fault (w : Word) : (s.writeI w).fault = s.fault := rfl
@[simp] theorem State.writeI_faultPc (w : Word) : (s.writeI w).faultPc = s.faultPc := rfl
@[simp] theorem State.writeI_draws (w : Word) : (s.writeI w).draws = s.draws := rfl
@[simp] theorem State.writeI_schedule (w : Word) : (s.writeI w).schedule = s.schedule := rfl
@[simp] theorem State.writeI_readV (w : Word) (q : Reg) : (s.writeI w).readV q = s.readV q := by
  simp [State.readV]
@[simp] theorem State.writeI_byteAt (w : Word) (q : Nat) : (s.writeI w).byteAt q = s.byteAt q := by
  simp [State.byteAt]

/-! ### writePc -/

@[simp] theorem State.writePc_cfg (w : Word) : (s.writePc w).cfg = s.cfg := rfl
@[simp] theorem State.writePc_v (w : Word) : (s.writePc w).v = s.v := rfl
@[simp] theorem State.writePc_i (w : Word) : (s.writePc w).i = s.i := rfl
@[simp] theorem State.writePc_stack (w : Word) : (s.writePc w).stack = s.stack := rfl
@[simp] theorem State.writePc_sp (w : Word) : (s.writePc w).sp = s.sp := rfl
@[simp] theorem State.writePc_dt (w : Word) : (s.writePc w).dt = s.dt := rfl
@[simp] theorem State.writePc_st (w : Word) : (s.writePc w).st = s.st := rfl
@[simp] theorem State.writePc_mem (w : Word) : (s.writePc w).mem = s.mem := rfl
@[simp] theorem State.writePc_fb (w : Word) : (s.writePc w).fb = s.fb := rfl
@[simp] theorem State.writePc_key (w : Word) : (s.writePc w).key = s.key := rfl
@[simp] theorem State.writePc_dirty (w : Word) : (s.writePc w).dirty = s.dirty := rfl
@[simp] theorem State.writePc_romBuf (w : Word) : (s.writePc w).romBuf = s.romBuf := rfl
@[simp] theorem State.writePc_fault (w : Word) : (s.writePc w).fault = s.fault := rfl
@[simp] theorem State.writePc_faultPc (w : Word) : (s.writePc w).faultPc = s.faultPc := rfl
@[simp] theorem State.writePc_draws (w : Word) : (s.writePc w).draws = s.draws := rfl
@[simp] theorem State.writePc_schedule (w : Word) : (s.writePc w).schedule = s.schedule := rfl
@[simp] theorem State.writePc_readV (w : Word) (q : Reg) : (s.writePc w).readV q = s.readV q := by
  simp [State.readV]
@[simp] theorem State.writePc_byteAt (w : Word) (q : Nat) : (s.writePc w).byteAt q = s.byteAt q := by
  simp [State.byteAt]

/-! ### advance -/

@[simp] theorem State.advance_cfg : (s.advance).cfg = s.cfg := rfl
@[simp] theorem State.advance_v : (s.advance).v = s.v := rfl
@[simp] theorem State.advance_i : (s.advance).i = s.i := rfl
@[simp] theorem State.advance_stack : (s.advance).stack = s.stack := rfl
@[simp] theorem State.advance_sp : (s.advance).sp = s.sp := rfl
@[simp] theorem State.advance_dt : (s.advance).dt = s.dt := rfl
@[simp] theorem State.advance_st : (s.advance).st = s.st := rfl
@[simp] theorem State.advance_mem : (s.advance).mem = s.mem := rfl
@[simp] theorem State.advance_fb : (s.advance).fb = s.fb := rfl
@[simp] theorem State.advance_key : (s.advance).key = s.key := rfl
@[simp] theorem State.advance_dirty : (s.advance).dirty = s.dirty := rfl
@[simp] theorem State.advance_romBuf : (s.advance).romBuf = s.romBuf := rfl
@[simp] theorem State.advance_fault : (s.advance).fault = s.fault := rfl
@[simp] theorem State.advance_faultPc : (s.advance).faultPc = s.faultPc := rfl
@[simp] theorem State.advance_draws : (s.advance).draws = s.draws := rfl
@[simp] theorem State.advance_schedule : (s.advance).schedule = s.schedule := rfl
@[simp] theorem State.advance_readV (q : Reg) : (s.advance).readV q = s.readV q := by
  simp [State.readV]
@[simp] theorem State.advance_byteAt (q : Nat) : (s.advance).byteAt q = s.byteAt q := by
  simp [State.byteAt]

/-! ### writeByte -/

@[simp] theorem State.writeByte_cfg (a : Nat) (b : Byte) : (s.writeByte a b).cfg = s.cfg := rfl
@[simp] theorem State.writeByte_v (a : Nat) (b : Byte) : (s.writeByte a b).v = s.v := rfl
@[simp] theorem State.writeByte_i (a : Nat) (b : Byte) : (s.writeByte a b).i = s.i := rfl
@[simp] theorem State.writeByte_pc (a : Nat) (b : Byte) : (s.writeByte a b).pc = s.pc := rfl
@[simp] theorem State.writeByte_stack (a : Nat) (b : Byte) : (s.writeByte a b).stack = s.stack := rfl
@[simp] theorem State.writeByte_sp (a : Nat) (b : Byte) : (s.writeByte a b).sp = s.sp := rfl
@[simp] theorem State.writeByte_dt (a : Nat) (b : Byte) : (s.writeByte a b).dt = s.dt := rfl
@[simp] theorem State.writeByte_st (a : Nat) (b : Byte) : (s.writeByte a b).st = s.st := rfl
@[simp] theorem State.writeByte_fb (a : Nat) (b : Byte) : (s.writeByte a b).fb = s.fb := rfl
@[simp] theorem State.writeByte_key (a : Nat) (b : Byte) : (s.writeByte a b).key = s.key := rfl
@[simp] theorem State.writeByte_dirty (a : Nat) (b : Byte) : (s.writeByte a b).dirty = s.dirty := rfl
@[simp] theorem State.writeByte_romBuf (a : Nat) (b : Byte) : (s.writeByte a b).romBuf = s.romBuf := rfl
@[simp] theorem State.writeByte_fault (a : Nat) (b : Byte) : (s.writeByte a b).fault = s.fault := rfl
@[simp] theorem State.writeByte_faultPc (a : Nat) (b : Byte) : (s.writeByte a b).faultPc = s.faultPc := rfl
@[simp] theorem State.writeByte_draws (a : Nat) (b : Byte) : (s.writeByte a b).draws = s.draws := rfl
@[simp] theorem State.writeByte_schedule (a : Nat) (b : Byte) : (s.writeByte a b).schedule = s.schedule := rfl
@[simp] theorem State.writeByte_readV (a : Nat) (b : Byte) (q : Reg) : (s.writeByte a b).readV q = s.readV q := by
  simp [State.readV]

/-! ### enterFault -/

@[simp] theorem State.enterFault_cfg (c : Cause) : (s.enterFault c).cfg = s.cfg := rfl
@[simp] theorem State.enterFault_v (c : Cause) : (s.enterFault c).v = s.v := rfl
@[simp] theorem State.enterFault_i (c : Cause) : (s.enterFault c).i = s.i := rfl
@[simp] theorem State.enterFault_pc (c : Cause) : (s.enterFault c).pc = s.pc := rfl
@[simp] theorem State.enterFault_stack (c : Cause) : (s.enterFault c).stack = s.stack := rfl
@[simp] theorem State.enterFault_sp (c : Cause) : (s.enterFault c).sp = s.sp := rfl
@[simp] theorem State.enterFault_dt (c : Cause) : (s.enterFault c).dt = s.dt := rfl
@[simp] theorem State.enterFault_st (c : Cause) : (s.enterFault c).st = s.st := rfl
@[simp] theorem State.enterFault_mem (c : Cause) : (s.enterFault c).mem = s.mem := rfl
@[simp] theorem State.enterFault_fb (c : Cause) : (s.enterFault c).fb = s.fb := rfl
@[simp] theorem State.enterFault_key (c : Cause) : (s.enterFault c).key = s.key := rfl
@[simp] theorem State.enterFault_dirty (c : Cause) : (s.enterFault c).dirty = s.dirty := rfl
@[simp] theorem State.enterFault_romBuf (c : Cause) : (s.enterFault c).romBuf = s.romBuf := rfl
@[simp] theorem State.enterFault_draws (c : Cause) : (s.enterFault c).draws = s.draws := rfl
@[simp] theorem State.enterFault_schedule (c : Cause) : (s.enterFault c).schedule = s.schedule := rfl
@[simp] theorem State.enterFault_readV (c : Cause) (q : Reg) : (s.enterFault c).readV q = s.readV q := by
  simp [State.readV]
@[simp] theorem State.enterFault_byteAt (c : Cause) (q : Nat) : (s.enterFault c).byteAt q = s.byteAt q := by
  simp [State.byteAt]

/-! ### skipIf -/

@[simp] theorem State.skipIf_cfg (c : Bool) : (s.skipIf c).cfg = s.cfg := by cases c <;> rfl
@[simp] theorem State.skipIf_v (c : Bool) : (s.skipIf c).v = s.v := by cases c <;> rfl
@[simp] theorem State.skipIf_i (c : Bool) : (s.skipIf c).i = s.i := by cases c <;> rfl
@[simp] theorem State.skipIf_stack (c : Bool) : (s.skipIf c).stack = s.stack := by cases c <;> rfl
@[simp] theorem State.skipIf_sp (c : Bool) : (s.skipIf c).sp = s.sp := by cases c <;> rfl
@[simp] theorem State.skipIf_dt (c : Bool) : (s.skipIf c).dt = s.dt := by cases c <;> rfl
@[simp] theorem State.skipIf_st (c : Bool) : (s.skipIf c).st = s.st := by cases c <;> rfl
@[simp] theorem State.skipIf_mem (c : Bool) : (s.skipIf c).mem = s.mem := by cases c <;> rfl
@[simp] theorem State.skipIf_fb (c : Bool) : (s.skipIf c).fb = s.fb := by cases c <;> rfl
@[simp] theorem State.skipIf_key (c : Bool) : (s.skipIf c).key = s.key := by cases c <;> rfl
@[simp] theorem State.skipIf_dirty (c : Bool) : (s.skipIf c).dirty = s.dirty := by cases c <;> rfl
@[simp] theorem State.skipIf_romBuf (c : Bool) : (s.skipIf c).romBuf = s.romBuf := by cases c <;> rfl
@[simp] theorem State.skipIf_fault (c : Bool) : (s.skipIf c).fault = s.fault := by cases c <;> rfl
@[simp] theorem State.skipIf_faultPc (c : Bool) : (s.skipIf c).faultPc = s.faultPc := by cases c <;> rfl
@[simp] theorem State.skipIf_draws (c : Bool) : (s.skipIf c).draws = s.draws := by cases c <;> rfl
@[simp] theorem State.skipIf_schedule (c : Bool) : (s.skipIf c).schedule = s.schedule := by cases c <;> rfl
@[simp] theorem State.skipIf_readV (c : Bool) (q : Reg) : (s.skipIf c).readV q = s.readV q := by
  simp [State.readV]
@[simp] theorem State.skipIf_byteAt (c : Bool) (q : Nat) : (s.skipIf c).byteAt q = s.byteAt q := by
  simp [State.byteAt]

/-! ### writeFlagThen -/

@[simp] theorem State.writeFlagThen_cfg (f : Bool) (x : Reg) (b : Byte) : (s.writeFlagThen f x b).cfg = s.cfg := rfl
@[simp] theorem State.writeFlagThen_i (f : Bool) (x : Reg) (b : Byte) : (s.writeFlagThen f x b).i = s.i := rfl
@[simp] theorem State.writeFlagThen_pc (f : Bool) (x : Reg) (b : Byte) : (s.writeFlagThen f x b).pc = s.pc := rfl
@[simp] theorem State.writeFlagThen_stack (f : Bool) (x : Reg) (b : Byte) : (s.writeFlagThen f x b).stack = s.stack := rfl
@[simp] theorem State.writeFlagThen_sp (f : Bool) (x : Reg) (b : Byte) : (s.writeFlagThen f x b).sp = s.sp := rfl
@[simp] theorem State.writeFlagThen_dt (f : Bool) (x : Reg) (b : Byte) : (s.writeFlagThen f x b).dt = s.dt := rfl
@[simp] theorem State.writeFlagThen_st (f : Bool) (x : Reg) (b : Byte) : (s.writeFlagThen f x b).st = s.st := rfl
@[simp] theorem State.writeFlagThen_mem (f : Bool) (x : Reg) (b : Byte) : (s.writeFlagThen f x b).mem = s.mem := rfl
@[simp] theorem State.writeFlagThen_fb (f : Bool) (x : Reg) (b : Byte) : (s.writeFlagThen f x b).fb = s.fb := rfl
@[simp] theorem State.writeFlagThen_key (f : Bool) (x : Reg) (b : Byte) : (s.writeFlagThen f x b).key = s.key := rfl
@[simp] theorem State.writeFlagThen_dirty (f : Bool) (x : Reg) (b : Byte) : (s.writeFlagThen f x b).dirty = s.dirty := rfl
@[simp] theorem State.writeFlagThen_romBuf (f : Bool) (x : Reg) (b : Byte) : (s.writeFlagThen f x b).romBuf = s.romBuf := rfl
@[simp] theorem State.writeFlagThen_fault (f : Bool) (x : Reg) (b : Byte) : (s.writeFlagThen f x b).fault = s.fault := rfl
@[simp] theorem State.writeFlagThen_faultPc (f : Bool) (x : Reg) (b : Byte) : (s.writeFlagThen f x b).faultPc = s.faultPc := rfl
@[simp] theorem State.writeFlagThen_draws (f : Bool) (x : Reg) (b : Byte) : (s.writeFlagThen f x b).draws = s.draws := rfl
@[simp] theorem State.writeFlagThen_schedule (f : Bool) (x : Reg) (b : Byte) : (s.writeFlagThen f x b).schedule = s.schedule := rfl
@[simp] theorem State.writeFlagThen_byteAt (f : Bool) (x : Reg) (b : Byte) (q : Nat) : (s.writeFlagThen f x b).byteAt q = s.byteAt q := by
  simp [State.byteAt]

/-! ### flagOp -/

@[simp] theorem State.flagOp_cfg (x y : Reg) (f : Byte → Byte → Bool) (g : Byte → Byte → Byte) : (s.flagOp x y f g).cfg = s.cfg := by unfold State.flagOp; split <;> rfl
@[simp] theorem State.flagOp_i (x y : Reg) (f : Byte → Byte → Bool) (g : Byte → Byte → Byte) : (s.flagOp x y f g).i = s.i := by unfold State.flagOp; split <;> rfl
@[simp] theorem State.flagOp_pc (x y : Reg) (f : Byte → Byte → Bool) (g : Byte → Byte → Byte) : (s.flagOp x y f g).pc = s.pc := by unfold State.flagOp; split <;> rfl
@[simp] theorem State.flagOp_stack (x y : Reg) (f : Byte → Byte → Bool) (g : Byte → Byte → Byte) : (s.flagOp x y f g).stack = s.stack := by unfold State.flagOp; split <;> rfl
@[simp] theorem State.flagOp_sp (x y : Reg) (f : Byte → Byte → Bool) (g : Byte → Byte → Byte) : (s.flagOp x y f g).sp = s.sp := by unfold State.flagOp; split <;> rfl
@[simp] theorem State.flagOp_dt (x y : Reg) (f : Byte → Byte → Bool) (g : Byte → Byte → Byte) : (s.flagOp x y f g).dt = s.dt := by unfold State.flagOp; split <;> rfl
@[simp] theorem State.flagOp_st (x y : Reg) (f : Byte → Byte → Bool) (g : Byte → Byte → Byte) : (s.flagOp x y f g).st = s.st := by unfold State.flagOp; split <;> rfl
@[simp] theorem State.flagOp_mem (x y : Reg) (f : Byte → Byte → Bool) (g : Byte → Byte → Byte) : (s.flagOp x y f g).mem = s.mem := by unfold State.flagOp; split <;> rfl
@[simp] theorem State.flagOp_fb (x y : Reg) (f : Byte → Byte → Bool) (g : Byte → Byte → Byte) : (s.flagOp x y f g).fb = s.fb := by unfold State.flagOp; split <;> rfl
@[simp] theorem State.flagOp_key (x y : Reg) (f : Byte → Byte → Bool) (g : Byte → Byte → Byte) : (s.flagOp x y f g).key = s.key := by unfold State.flagOp; split <;> rfl
@[simp] theorem State.flagOp_dirty (x y : Reg) (f : Byte → Byte → Bool) (g : Byte → Byte → Byte) : (s.flagOp x y f g).dirty = s.dirty := by unfold State.flagOp; split <;> rfl
@[simp] theorem State.flagOp_romBuf (x y : Reg) (f : Byte → Byte → Bool) (g : Byte → Byte → Byte) : (s.flagOp x y f g).romBuf = s.romBuf := by unfold State.flagOp; split <;> rfl
@[simp] theorem State.flagOp_fault (x y : Reg) (f : Byte → Byte → Bool) (g : Byte → Byte → Byte) : (s.flagOp x y f g).fault = s.fault := by unfold State.flagOp; split <;> rfl
@[simp] theorem State.flagOp_faultPc (x y : Reg) (f : Byte → Byte → Bool) (g : Byte → Byte → Byte) : (s.flagOp x y f g).faultPc = s.faultPc := by unfold State.flagOp; split <;> rfl
@[simp] theorem State.flagOp_draws (x y : Reg) (f : Byte → Byte → Bool) (g : Byte → Byte → Byte) : (s.flagOp x y f g).draws = s.draws := by unfold State.flagOp; split <;> rfl
@[simp] theorem State.flagOp_schedule (x y : Reg) (f : Byte → Byte → Bool) (g : Byte → Byte → Byte) : (s.flagOp x y f g).schedule = s.schedule := by unfold State.flagOp; split <;> rfl
@[simp] theorem State.flagOp_byteAt (x y : Reg) (f : Byte → Byte → Bool) (g : Byte → Byte → Byte) (q : Nat) : (s.flagOp x y f g).byteAt q = s.byteAt q := by
  simp [State.byteAt]

/-! ### writeIndexFlag -/

@[simp] theorem State.writeIndexFlag_cfg (o : Bool) : (s.writeIndexFlag o).cfg = s.cfg := by unfold State.writeIndexFlag; split <;> (try split) <;> rfl
@[simp] theorem State.writeIndexFlag_i (o : Bool) : (s.writeIndexFlag o).i = s.i := by unfold State.writeIndexFlag; split <;> (try split) <;> rfl
@[simp] theorem State.writeIndexFlag_pc (o : Bool) : (s.writeIndexFlag o).pc = s.pc := by unfold State.writeIndexFlag; split <;> (try split) <;> rfl
@[simp] theorem State.writeIndexFlag_stack (o : Bool) : (s.writeIndexFlag o).stack = s.stack := by unfold State.writeIndexFlag; split <;> (try split) <;> rfl
@[simp] theorem State.writeIndexFlag_sp (o : Bool) : (s.writeIndexFlag o).sp = s.sp := by unfold State.writeIndexFlag; split <;> (try split) <;> rfl
@[simp] theorem State.writeIndexFlag_dt (o : Bool) : (s.writeIndexFlag o).dt = s.dt := by unfold State.writeIndexFlag; split <;> (try split) <;> rfl
@[simp] theorem State.writeIndexFlag_st (o : Bool) : (s.writeIndexFlag o).st = s.st := by unfold State.writeIndexFlag; split <;> (try split) <;> rfl
@[simp] theorem State.writeIndexFlag_mem (o : Bool) : (s.writeIndexFlag o).mem = s.mem := by unfold State.writeIndexFlag; split <;> (try split) <;> rfl
@[simp] theorem State.writeIndexFlag_fb (o : Bool) : (s.writeIndexFlag o).fb = s.fb := by unfold State.writeIndexFlag; split <;> (try split) <;> rfl
@[simp] theorem State.writeIndexFlag_key (o : Bool) : (s.writeIndexFlag o).key = s.key := by unfold State.writeIndexFlag; split <;> (try split) <;> rfl
@[simp] theorem State.writeIndexFlag_dirty (o : Bool) : (s.writeIndexFlag o).dirty = s.dirty := by unfold State.writeIndexFlag; split <;> (try split) <;> rfl
@[simp] theorem State.writeIndexFlag_romBuf (o : Bool) : (s.writeIndexFlag o).romBuf = s.romBuf := by unfold State.writeIndexFlag; split <;> (try split) <;> rfl
@[simp] theorem State.writeIndexFlag_fault (o : Bool) : (s.writeIndexFlag o).fault = s.fault := by unfold State.writeIndexFlag; split <;> (try split) <;> rfl
@[simp] theorem State.writeIndexFlag_faultPc (o : Bool) : (s.writeIndexFlag o).faultPc = s.faultPc := by unfold State.writeIndexFlag; split <;> (try split) <;> rfl
@[simp] theorem State.writeIndexFlag_draws (o : Bool) : (s.writeIndexFlag o).draws = s.draws := by unfold State.writeIndexFlag; split <;> (try split) <;> rfl
@[simp] theorem State.writeIndexFlag_schedule (o : Bool) : (s.writeIndexFlag o).schedule = s.schedule := by unfold State.writeIndexFlag; split <;> (try split) <;> rfl
@[simp] theorem State.writeIndexFlag_byteAt (o : Bool) (q : Nat) : (s.writeIndexFlag o).byteAt q = s.byteAt q := by
  simp [State.byteAt]

/-! ### blit -/

@[simp] theorem State.blit_cfg (a b : Byte) (l : List Byte) : (s.blit a b l).cfg = s.cfg := rfl
@[simp] theorem State.blit_i (a b : Byte) (l : List Byte) : (s.blit a b l).i = s.i := rfl
@[simp] theorem State.blit_pc (a b : Byte) (l : List Byte) : (s.blit a b l).pc = s.pc := rfl
@[simp] theorem State.blit_stack (a b : Byte) (l : List Byte) : (s.blit a b l).stack = s.stack := rfl
@[simp] theorem State.blit_sp (a b : Byte) (l : List Byte) : (s.blit a b l).sp = s.sp := rfl
@[simp] theorem State.blit_dt (a b : Byte) (l : List Byte) : (s.blit a b l).dt = s.dt := rfl
@[simp] theorem State.blit_st (a b : Byte) (l : List Byte) : (s.blit a b l).st = s.st := rfl
@[simp] theorem State.blit_mem (a b : Byte) (l : List Byte) : (s.blit a b l).mem = s.mem := rfl
@[simp] theorem State.blit_key (a b : Byte) (l : List Byte) : (s.blit a b l).key = s.key := rfl
@[simp] theorem State.blit_romBuf (a b : Byte) (l : List Byte) : (s.blit a b l).romBuf = s.romBuf := rfl
@[simp] theorem State.blit_fault (a b : Byte) (l : List Byte) : (s.blit a b l).fault = s.fault := rfl
@[simp] theorem State.blit_faultPc (a b : Byte) (l : List Byte) : (s.blit a b l).faultPc = s.faultPc := rfl
@[simp] theorem State.blit_draws (a b : Byte) (l : List Byte) : (s.blit a b l).draws = s.draws := rfl
@[simp] theorem State.blit_schedule (a b : Byte) (l : List Byte) : (s.blit a b l).schedule = s.schedule := rfl
@[simp] theorem State.blit_byteAt (a b : Byte) (l : List Byte) (q : Nat) : (s.blit a b l).byteAt q = s.byteAt q := by
  simp [State.byteAt]

/-! ### what the updates write -/

@[simp] theorem State.readV_writeV (r q : Reg) (b : Byte) :
    (s.writeV r b).readV q = if q = r then b else s.readV q := by
  change (s.v.set r.val b r.isLt)[q.val] = if q = r then b else s.v[q.val]
  rw [Vector.getElem_set]
  simp only [Fin.ext_iff, eq_comm]

@[simp] theorem State.writeI_i (w : Word) : (s.writeI w).i = w := rfl
@[simp] theorem State.writePc_pc (w : Word) : (s.writePc w).pc = w := rfl
@[simp] theorem State.advance_pc : s.advance.pc = s.pc + 2 := rfl
@[simp] theorem State.enterFault_fault (c : Cause) : (s.enterFault c).fault = c := rfl
@[simp] theorem State.enterFault_faultPc (c : Cause) : (s.enterFault c).faultPc = s.pc := rfl
@[simp] theorem State.skipIf_pc (c : Bool) : (s.skipIf c).pc = if c then s.pc + 2 else s.pc := by
  cases c <;> rfl
@[simp] theorem State.blit_dirty (a b : Byte) (l : List Byte) : (s.blit a b l).dirty = true := rfl
@[simp] theorem State.blit_fb (a b : Byte) (l : List Byte) :
    (s.blit a b l).fb = (drawPixels s.fb (spritePixels a b 0 l)).1 := rfl
@[simp] theorem State.readV_blit (a b : Byte) (l : List Byte) (q : Reg) :
    (s.blit a b l).readV q =
      if q = vf then flagByte (drawPixels s.fb (spritePixels a b 0 l)).2 else s.readV q := by
  unfold State.blit
  rw [State.readV_writeV]
  rfl

@[simp] theorem State.finish_ok (t : State) : s.finish (.ok t) = .next t := rfl
@[simp] theorem State.finish_error (c : Cause) : s.finish (.error c) = .next (s.enterFault c) := rfl

end Sys2Proof.Machine
end

