-- ==== Sys2Proof/Laws/Ops.lean ====
section
/-! SUPPORT. One lemma per shared operation that says all it can do; the provers cite these instead of
unfolding the operation. -/

namespace Sys2Proof.Machine

variable {s t : State}

/-! ### Memory access -/

@[simp] theorem State.byteAt_writeByte (s : State) (a q : Nat) (b : Byte) :
    (s.writeByte a b).byteAt q = if q = a then b else s.byteAt q :=
  Memory.read_write s.cfg.font s.mem a q b

theorem State.memRead_of_le {a : Nat} (h : a ≤ 0xFFF) : s.memRead a = .ok (s.byteAt a) :=
  if_neg (by omega)

theorem State.memRead_of_lt {a : Nat} (h : 0xFFF < a) : s.memRead a = .error .memRange := if_pos h

theorem State.memWrite_of_le {a : Nat} {b : Byte} (h : a ≤ 0xFFF) :
    s.memWrite a b = .ok (s.writeByte a b) := if_neg (by omega)

theorem State.memWrite_of_lt {a : Nat} {b : Byte} (h : 0xFFF < a) :
    s.memWrite a b = .error .memRange := if_pos h

theorem State.memoryOk_writeByte {a : Nat} (h : Memory.wf s.cfg.font s.mem = true) (ha : a ≤ 0xFFF)
    (b : Byte) : Memory.wf (s.writeByte a b).cfg.font (s.writeByte a b).mem = true :=
  Memory.wf_write h (by unfold memSize; omega) b

/-- A write reached only through `memWrite` keeps the canonical form. -/
theorem State.memoryOk_memWrite {a : Nat} {b : Byte} (hs : Memory.wf s.cfg.font s.mem = true)
    (h : s.memWrite a b = .ok t) : Memory.wf t.cfg.font t.mem = true := by
  unfold State.memWrite at h
  split at h
  · cases h
  next hle => cases h; exact State.memoryOk_writeByte hs (by omega) b

/-! ### Loops -/

section
variable {α : Type} {body : Nat → α → Except Cause α} {x y : α}

theorem loop_succ (n : Nat) : loop body (n + 1) x = (loop body n x).bind (body n) := rfl

/-- A loop whose body keeps a property indexed by the iteration ends with it, or raises a cause its
body raised. -/
theorem loop_induct {P : Nat → α → Prop} {E : Cause → Prop} (n : Nat) (h0 : P 0 x)
    (hok : ∀ k z z', k < n → P k z → body k z = .ok z' → P (k + 1) z')
    (herr : ∀ k z c, k < n → P k z → body k z = .error c → E c) :
    (∃ y, loop body n x = .ok y ∧ P n y) ∨ ∃ c, loop body n x = .error c ∧ E c := by
  induction n with
  | zero => exact .inl ⟨x, rfl, h0⟩
  | succ n ih =>
    rw [loop_succ]
    rcases ih (fun k z z' hk => hok k z z' (by omega)) (fun k z c hk => herr k z c (by omega)) with
      ⟨y, hy, hP⟩ | ⟨c, hc, hE⟩
    · rw [hy]
      change (∃ z, body n y = .ok z ∧ _) ∨ ∃ c, body n y = .error c ∧ _
      cases hb : body n y with
      | ok z => exact .inl ⟨z, rfl, hok n y z (by omega) hP hb⟩
      | error c => exact .inr ⟨c, rfl, herr n y c (by omega) hP hb⟩
    · exact .inr ⟨c, by rw [hc]; rfl, hE⟩

end

/-- Reading rows: the bytes at `I .. I+n-1`, or `MEM_RANGE` when one of them is past 0xFFF. -/
theorem State.readRows_eq (s : State) (n : Nat) :
    s.readRows n = if s.i.toNat + n ≤ 0x1000 ∨ n = 0
      then .ok ((List.range n).map fun r => s.byteAt (s.i.toNat + r)) else .error .memRange := by
  induction n with
  | zero => simp [State.readRows, loop]
  | succ n ih =>
    unfold State.readRows at ih ⊢
    rw [loop_succ, ih]
    by_cases hn : s.i.toNat + n ≤ 0x1000 ∨ n = 0
    · rw [if_pos hn]
      change (s.memRead (indexedAddress s.i n)).map _ = _
      unfold indexedAddress
      by_cases hle : s.i.toNat + n ≤ 0xFFF
      · rw [State.memRead_of_le hle, if_pos (by omega), List.range_succ, List.map_append]
        rfl
      · rw [State.memRead_of_lt (by omega), if_neg (by omega)]
        rfl
    · rw [if_neg hn, if_neg (by omega)]
      rfl

/-- What a block store does: memory at `I .. I+n-1` becomes `V[0] .. V[n-1]` and nothing else changes,
or `MEM_RANGE` when one of the addresses is past 0xFFF. -/
theorem State.storeRegs_spec (s : State) (n : Nat) :
    (s.i.toNat + n ≤ 0x1000 ∨ n = 0) ∧ (∃ m, s.storeRegs n = .ok { s with mem := m } ∧
      (Memory.wf s.cfg.font s.mem = true → Memory.wf s.cfg.font m = true) ∧
      ∀ q, Memory.read s.cfg.font m q =
        if s.i.toNat ≤ q ∧ q < s.i.toNat + n then s.readV (regOfNat (q - s.i.toNat)) else s.byteAt q) ∨
    ¬(s.i.toNat + n ≤ 0x1000 ∨ n = 0) ∧ s.storeRegs n = .error .memRange := by
  induction n with
  | zero =>
    refine .inl ⟨.inr rfl, s.mem, rfl, id, fun q => ?_⟩
    rw [if_neg (by omega)]; rfl
  | succ n ih =>
    unfold State.storeRegs at ih ⊢
    rw [loop_succ]
    rcases ih with ⟨hn, m, hm, hwf, hread⟩ | ⟨hn, he⟩
    · rw [hm]
      change _ ∧ (∃ m', State.memWrite _ _ _ = _ ∧ _) ∨ _ ∧ State.memWrite _ _ _ = _
      unfold indexedAddress
      by_cases hle : s.i.toNat + n ≤ 0xFFF
      · refine .inl ⟨by omega, Memory.write s.cfg.font m (s.i.toNat + n) (s.readV (regOfNat n)), ?_, ?_, ?_⟩
        · rw [State.memWrite_of_le hle]; rfl
        · exact fun h => Memory.wf_write (hwf h) (by unfold memSize; omega) _
        · intro q
          rw [Memory.read_write]
          by_cases hq : q = s.i.toNat + n
          · subst hq; rw [if_pos rfl, if_pos (by omega), Nat.add_sub_cancel_left]
          · rw [if_neg hq, hread]
            by_cases hr : s.i.toNat ≤ q ∧ q < s.i.toNat + n
            · rw [if_pos hr, if_pos (by omega)]
            · rw [if_neg hr, if_neg (by omega)]
      · exact .inr ⟨by omega, State.memWrite_of_lt (by omega)⟩
    · exact .inr ⟨by omega, by rw [he]; rfl⟩

/-- What a block load does: `V[0] .. V[n-1]` become the bytes at `I .. I+n-1` and nothing else changes,
or `MEM_RANGE` when one of the addresses is past 0xFFF. -/
theorem State.loadRegs_spec (s : State) (n : Nat) (hn16 : n ≤ 16) :
    (s.i.toNat + n ≤ 0x1000 ∨ n = 0) ∧ (∃ w, s.loadRegs n = .ok { s with v := w } ∧
      ∀ q : Reg, w.get q = if q.val < n then s.byteAt (s.i.toNat + q.val) else s.readV q) ∨
    ¬(s.i.toNat + n ≤ 0x1000 ∨ n = 0) ∧ s.loadRegs n = .error .memRange := by
  induction n with
  | zero => exact .inl ⟨.inr rfl, s.v, rfl, fun q => by rw [if_neg (by omega)]; rfl⟩
  | succ n ih =>
    unfold State.loadRegs at ih ⊢
    rw [loop_succ]
    rcases ih (by omega) with ⟨hn, w, hw, hread⟩ | ⟨hn, he⟩
    · rw [hw]
      change _ ∧ (∃ w', (State.memRead { s with v := w } _).map _ = _ ∧ _) ∨
        _ ∧ (State.memRead { s with v := w } _).map _ = _
      unfold indexedAddress
      by_cases hle : s.i.toNat + n ≤ 0xFFF
      · refine .inl ⟨by omega, (State.writeV { s with v := w } (regOfNat n) (s.byteAt (s.i.toNat + n))).v, ?_, ?_⟩
        · rw [State.memRead_of_le hle]; rfl
        · intro q
          have h := State.readV_writeV { s with v := w } (regOfNat n) q (s.byteAt (s.i.toNat + n))
          unfold State.readV at h
          rw [h, hread]
          have hreg : (regOfNat n).val = n := Nat.mod_eq_of_lt (by omega)
          by_cases hq : q.val = n
          · have hq' : q = regOfNat n := Fin.ext (by omega)
            rw [if_pos hq', if_pos (by omega), hq]
          · have hq' : q ≠ regOfNat n := fun e => hq (by rw [e]; exact hreg)
            rw [if_neg hq']
            by_cases hr : q.val < n
            · rw [if_pos hr, if_pos (by omega)]
            · rw [if_neg hr, if_neg (by omega)]
      · exact .inr ⟨by omega, by rw [State.memRead_of_lt (by omega)]; rfl⟩
    · exact .inr ⟨by omega, by rw [he]; rfl⟩

/-- What LD B's three writes do: the digits at `I`, `I+1`, `I+2` and nothing else, or `MEM_RANGE` when one
of the addresses is past 0xFFF. -/
theorem State.storeDigits_spec (s : State) (b : Byte) :
    s.i.toNat + 2 ≤ 0xFFF ∧ (∃ m, s.storeDigits b = .ok { s with mem := m } ∧
      (Memory.wf s.cfg.font s.mem = true → Memory.wf s.cfg.font m = true) ∧
      ∀ q, Memory.read s.cfg.font m q =
        if q = s.i.toNat + 2 then onesDigit b else if q = s.i.toNat + 1 then tensDigit b
        else if q = s.i.toNat then hundredsDigit b else s.byteAt q) ∨
    0xFFF < s.i.toNat + 2 ∧ s.storeDigits b = .error .memRange := by
  unfold State.storeDigits indexedAddress
  by_cases h2 : s.i.toNat + 2 ≤ 0xFFF
  · refine .inl ⟨h2, ?_⟩
    rw [State.memWrite_of_le (by omega)]
    change ∃ m, (State.memWrite _ _ _).bind _ = _ ∧ _
    rw [State.memWrite_of_le (by omega)]
    change ∃ m, State.memWrite _ _ _ = _ ∧ _
    rw [State.memWrite_of_le (by omega)]
    refine ⟨_, rfl, fun h => ?_, fun q => ?_⟩
    · exact Memory.wf_write (Memory.wf_write (Memory.wf_write h (by unfold memSize; omega) _)
        (by unfold memSize; omega) _) (by unfold memSize; omega) _
    · change Memory.read s.cfg.font (Memory.write s.cfg.font (Memory.write s.cfg.font
        (Memory.write s.cfg.font s.mem _ _) _ _) _ _) q = _
      simp only [Memory.read_write, Nat.add_zero]
      rfl
  · refine .inr ⟨by omega, ?_⟩
    by_cases h0 : s.i.toNat + 0 ≤ 0xFFF
    · rw [State.memWrite_of_le h0]
      change (State.memWrite _ _ _).bind _ = _
      by_cases h1 : s.i.toNat + 1 ≤ 0xFFF
      · rw [State.memWrite_of_le h1]
        change State.memWrite _ _ _ = _
        rw [State.memWrite_of_lt (by omega)]
      · rw [State.memWrite_of_lt (by omega)]; rfl
    · rw [State.memWrite_of_lt (by omega)]; rfl

/-! ### The stack -/

theorem State.push_of_lt {w : Word} (h : s.sp.val < 16) :
    s.push w = .ok { s with stack := s.stack.set s.sp.val w h, sp := ⟨s.sp.val + 1, Nat.succ_lt_succ h⟩ } :=
  dif_pos h

theorem State.push_of_full {w : Word} (h : s.sp = 16) : s.push w = .error .stackOverflow :=
  dif_neg (by simp [h])

theorem State.pop_of_pos {n : Nat} (hn : n + 1 < 17) (h : s.sp = ⟨n + 1, hn⟩) :
    s.pop = .ok (s.stack.get ⟨n, Nat.lt_of_succ_lt_succ hn⟩, { s with sp := ⟨n, Nat.lt_of_succ_lt hn⟩ }) := by
  unfold State.pop
  rw [h]

theorem State.pop_of_empty (h : s.sp = 0) : s.pop = .error .stackUnderflow := by
  unfold State.pop
  rw [h]

/-! ### Keys -/

theorem keyOfByte_of_lt {b : Byte} (h : b.toNat < 16) : keyOfByte b = .ok ⟨b.toNat, h⟩ := dif_pos h

theorem keyOfByte_of_le {b : Byte} (h : 16 ≤ b.toNat) : keyOfByte b = .error .keyRange :=
  dif_neg (by omega)

/-- The scan finds the lowest pressed key. -/
theorem lowestKey_eq_some {key : BitVec 16} {k : Key} (h : lowestKey key = some k) :
    key.getLsbD k.val = true ∧ ∀ j : Key, j < k → key.getLsbD j.val = false := by
  unfold lowestKey at h
  rw [List.find?_eq_some_iff_append] at h
  obtain ⟨hk, as, bs, hl, hn⟩ := h
  refine ⟨hk, fun j hj => ?_⟩
  have hs : List.Pairwise (· < ·) (as ++ k :: bs) := by rw [← hl]; decide
  have hm : j ∈ as ++ k :: bs := by rw [← hl]; clear hj; revert j; decide
  rcases List.mem_append.1 hm with hm | hm
  · simpa using hn j hm
  · rcases List.mem_cons.1 hm with rfl | hm
    · exact absurd hj (lt_irrefl _)
    · have := (List.pairwise_cons.1 (List.pairwise_append.1 hs).2.1).1 j hm
      exact absurd (lt_trans hj this) (lt_irrefl _)

theorem lowestKey_eq_none {key : BitVec 16} (h : lowestKey key = none) (k : Key) :
    key.getLsbD k.val = false := by
  unfold lowestKey at h
  rw [List.find?_eq_none] at h
  have := h k (by revert k; decide)
  simpa using this

/-! ### The framebuffer -/

theorem Framebuffer.ext_pixel {f g : Framebuffer} (h : ∀ x y, f.pixel x y = g.pixel x y) : f = g := by
  apply Vector.ext
  intro i hi
  apply BitVec.eq_of_getLsbD_eq
  intro j hj
  exact h ⟨j, hj⟩ ⟨i, hi⟩

theorem Framebuffer.pixel_toggle (f : Framebuffer) (x x' : Fin 64) (y y' : Fin 32) :
    (f.toggle x y).pixel x' y' = (f.pixel x' y' ^^ decide (x' = x ∧ y' = y)) := by
  change ((f.set y.val (f.get y ^^^ 1#64 <<< x.val) y.isLt)[y'.val]).getLsbD x'.val =
    ((f[y'.val]).getLsbD x'.val ^^ decide (x' = x ∧ y' = y))
  rw [Vector.getElem_set]
  by_cases hy : y = y'
  · subst hy
    rw [if_pos rfl]
    change ((f[y.val]) ^^^ 1#64 <<< x.val).getLsbD x'.val = _
    rw [BitVec.getLsbD_xor, BitVec.getLsbD_shiftLeft]
    congr 1
    have hx := x'.isLt
    by_cases e : x' = x
    · subst e; simp
    · have e' : x'.val ≠ x.val := fun h => e (Fin.ext h)
      simp [e]
      omega
  · rw [if_neg (fun h => hy (Fin.ext h))]
    simp [Ne.symm hy]

/-- Toggling a list of distinct pixels: each pixel listed flips, the others stay, and the collision flag
says that a listed pixel was lit. -/
theorem drawPixels_spec {ps : List (Fin 64 × Fin 32)} (hnd : ps.Nodup) (f : Framebuffer) :
    (∀ x y, (drawPixels f ps).1.pixel x y = (f.pixel x y ^^ decide ((x, y) ∈ ps))) ∧
      ((drawPixels f ps).2 = true ↔ ∃ p ∈ ps, f.pixel p.1 p.2 = true) := by
  suffices h : ∀ (b : Bool), (∀ x y, (ps.foldl drawPixel (f, b)).1.pixel x y =
      (f.pixel x y ^^ decide ((x, y) ∈ ps))) ∧
      ((ps.foldl drawPixel (f, b)).2 = true ↔ b = true ∨ ∃ p ∈ ps, f.pixel p.1 p.2 = true) by
    have := h false
    simpa [drawPixels] using this
  induction ps generalizing f with
  | nil => simp
  | cons p ps ih =>
    intro b
    obtain ⟨hp, hnd⟩ := List.nodup_cons.1 hnd
    obtain ⟨h1, h2⟩ := ih hnd (f.toggle p.1 p.2) (b || f.pixel p.1 p.2)
    rw [List.foldl_cons]
    refine ⟨fun x y => ?_, ?_⟩
    · change (List.foldl drawPixel (f.toggle p.1 p.2, b || f.pixel p.1 p.2) ps).1.pixel x y = _
      rw [h1, Framebuffer.pixel_toggle]
      by_cases e : (x, y) = p
      · have e1 : x = p.1 ∧ y = p.2 := by rw [← e]; exact ⟨rfl, rfl⟩
        have e2 : (x, y) ∉ ps := e ▸ hp
        have e3 : p ∉ ps := hp
        simp [e1, e3]
      · have e1 : ¬(x = p.1 ∧ y = p.2) := fun h => e (Prod.ext h.1 h.2)
        simp [e1, e, List.mem_cons]
    · change (List.foldl drawPixel (f.toggle p.1 p.2, b || f.pixel p.1 p.2) ps).2 = true ↔ _
      rw [h2]
      have key : ∀ q ∈ ps, (f.toggle p.1 p.2).pixel q.1 q.2 = f.pixel q.1 q.2 := by
        intro q hq
        have : ¬(q.1 = p.1 ∧ q.2 = p.2) := fun h => hp (Prod.ext h.1 h.2 ▸ hq)
        rw [Framebuffer.pixel_toggle]; simp [this]
      constructor
      · rintro (h | ⟨q, hq, h⟩)
        · rcases Bool.or_eq_true_iff.1 h with h | h
          · exact .inl h
          · exact .inr ⟨p, List.mem_cons_self, h⟩
        · exact .inr ⟨q, List.mem_cons_of_mem _ hq, key q hq ▸ h⟩
      · rintro (h | ⟨q, hq, h⟩)
        · exact .inl (by simp [h])
        · rcases List.mem_cons.1 hq with rfl | hq
          · exact .inl (by simp [h])
          · exact .inr ⟨q, hq, (key q hq).trans h⟩

/-- Which pixels a sprite toggles: those its 1 bits name, bit 7 leftmost, wrapped in both directions. -/
theorem mem_spritePixels (vx vy : Byte) (x : Fin 64) (y : Fin 32) (rows : List Byte) (r0 : Nat) :
    (x, y) ∈ spritePixels vx vy r0 rows ↔ ∃ r c, r < rows.length ∧ c < 8 ∧
      (rows.getD r 0).getLsbD (7 - c) = true ∧ x = pixelColumn vx c ∧ y = pixelRow vy (r0 + r) := by
  induction rows generalizing r0 with
  | nil => simp [spritePixels]
  | cons row rows ih =>
    rw [spritePixels, List.mem_append, ih]
    constructor
    · rintro (h | ⟨r, c, hr, hc, hb, hx, hy⟩)
      · simp only [spriteRowPixels, List.mem_map, List.mem_filter, List.mem_range, Prod.mk.injEq] at h
        obtain ⟨c, ⟨hc, hb⟩, rfl, rfl⟩ := h
        exact ⟨0, c, by simp, hc, by simpa using hb, rfl, rfl⟩
      · exact ⟨r + 1, c, by simpa using hr, hc, by simpa using hb, hx, by rw [hy]; congr 1; omega⟩
    · rintro ⟨r, c, hr, hc, hb, hx, hy⟩
      cases r with
      | zero =>
        left
        simp only [spriteRowPixels, List.mem_map, List.mem_filter, List.mem_range, Prod.mk.injEq]
        exact ⟨c, ⟨hc, by simpa using hb⟩, hx.symm, hy.symm⟩
      | succ r =>
        right
        exact ⟨r, c, by simpa using hr, hc, by simpa using hb, hx, by rw [hy]; congr 1; omega⟩

theorem pixelColumn_inj {vx : Byte} {c c' : Nat} (hc : c < 8) (hc' : c' < 8)
    (h : pixelColumn vx c = pixelColumn vx c') : c = c' := by
  have h' : (vx.toNat % 64 + c) % 64 = (vx.toNat % 64 + c') % 64 := congrArg Fin.val h
  omega

theorem pixelRow_inj {vy : Byte} {r r' : Nat} (hr : r < 32) (hr' : r' < 32)
    (h : pixelRow vy r = pixelRow vy r') : r = r' := by
  have h' : (vy.toNat % 32 + r) % 32 = (vy.toNat % 32 + r') % 32 := congrArg Fin.val h
  omega

/-- No pixel is toggled twice by a sprite of at most 32 rows. -/
theorem spritePixels_nodup (vx vy : Byte) (rows : List Byte) (r0 : Nat) (h : r0 + rows.length ≤ 32) :
    (spritePixels vx vy r0 rows).Nodup := by
  induction rows generalizing r0 with
  | nil => simp [spritePixels]
  | cons row rows ih =>
    simp only [List.length_cons] at h
    rw [spritePixels]
    apply List.Nodup.append
    · unfold spriteRowPixels
      apply List.Nodup.map_on
      · intro c hc c' hc' e
        simp only [List.mem_filter, List.mem_range] at hc hc'
        exact pixelColumn_inj hc.1 hc'.1 (congrArg Prod.fst e)
      · exact List.Nodup.filter _ List.nodup_range
    · exact ih (r0 + 1) (by omega)
    · rintro ⟨x, y⟩ h1 h2
      simp only [spriteRowPixels, List.mem_map, List.mem_filter, List.mem_range, Prod.mk.injEq] at h1
      obtain ⟨c, -, -, hy⟩ := h1
      obtain ⟨r, c', hr, -, -, -, hy'⟩ := (mem_spritePixels vx vy x y rows (r0 + 1)).1 h2
      have := pixelRow_inj (by omega) (by omega) (hy.trans hy')
      omega

/-! ### Flags -/

theorem State.readV_writeFlagThen (s : State) (f : Bool) (x q : Reg) (b : Byte) :
    (s.writeFlagThen f x b).readV q =
      if q = x then b else if q = vf then flagByte f else s.readV q := by
  unfold State.writeFlagThen
  rw [State.readV_writeV, State.readV_writeV]

/-- A flag-writing ALU instruction writes its flag to VF and then its result to the destination; under
`Reread` the result sees VF already holding the flag. -/
theorem State.readV_flagOp (s : State) (x y q : Reg) (f : Byte → Byte → Bool) (g : Byte → Byte → Byte) :
    (s.flagOp x y f g).readV q =
      if q = x then
        match s.cfg.vfOperandOrder with
        | .snapshot => g (s.readV x) (s.readV y)
        | .reread =>
          g (if x = vf then flagByte (f (s.readV x) (s.readV y)) else s.readV x)
            (if y = vf then flagByte (f (s.readV x) (s.readV y)) else s.readV y)
      else if q = vf then flagByte (f (s.readV x) (s.readV y)) else s.readV q := by
  unfold State.flagOp
  cases s.cfg.vfOperandOrder
  · exact State.readV_writeFlagThen ..
  · change (State.writeV (State.writeV s vf _) x _).readV q = _
    simp only [State.readV_writeV]

theorem State.readV_writeIndexFlag (s : State) (o : Bool) (q : Reg) :
    (s.writeIndexFlag o).readV q =
      if q = vf then (if o then 1 else if s.cfg.addiFlagClear then 0 else s.readV vf) else s.readV q := by
  unfold State.writeIndexFlag
  cases o <;> cases s.cfg.addiFlagClear <;> simp +contextual

/-! ### The end of a cycle -/

/-- A cycle never faults or refuses at its end: it answers the handler's state, or its fault entry. -/
theorem State.finish_cases (s : State) (r : Except Cause State) :
    (∃ t, r = .ok t ∧ s.finish r = .next t) ∨ ∃ c, r = .error c ∧ s.finish r = .next (s.enterFault c) := by
  cases r with
  | ok t => exact .inl ⟨t, rfl, rfl⟩
  | error c => exact .inr ⟨c, rfl, rfl⟩

end Sys2Proof.Machine
end

