-- ==== Sys2Proof/Laws/Exec.lean ====
section
/-! SUPPORT. What each instruction that may raise a cause does, said once: the next state it answers, in
both outcomes. The other instructions answer the state their meaning names, so `cases` on the answer
shows it. -/

namespace Sys2Proof.Machine

variable {s t : State}

/-- A cycle's end answers the handler's state, or the fault entry of the cause it raised. -/
theorem State.finish_eq_next {r : Except Cause State} (h : s.finish r = .next t) :
    r = .ok t ∨ ∃ c, r = .error c ∧ t = s.enterFault c := by
  cases r with
  | ok u => left; cases h; rfl
  | error c => right; exact ⟨c, rfl, by cases h; rfl⟩

/-- RET pops, or underflows. -/
theorem exec_ret_cases (h : exec .ret s = .next t) :
    (∃ (n : Nat) (hn : n + 1 < 17), s.sp = ⟨n + 1, hn⟩ ∧
      t = { s with pc := s.stack.get ⟨n, Nat.lt_of_succ_lt_succ hn⟩, sp := ⟨n, Nat.lt_of_succ_lt hn⟩ }) ∨
    s.sp = 0 ∧ t = s.enterFault .stackUnderflow := by
  change s.finish (s.advance.pop.map fun r => r.2.writePc r.1) = .next t at h
  by_cases h0 : s.sp = 0
  · rw [State.pop_of_empty (show s.advance.sp = 0 from h0)] at h
    cases h
    exact .inr ⟨h0, rfl⟩
  · obtain ⟨n, hn, e⟩ : ∃ (n : Nat) (hn : n + 1 < 17), s.sp = ⟨n + 1, hn⟩ := by
      obtain ⟨k, hk⟩ : ∃ k, k = s.sp := ⟨_, rfl⟩
      rw [← hk] at h0 ⊢
      obtain ⟨v, hv⟩ := k
      cases v with
      | zero => exact absurd rfl h0
      | succ n => exact ⟨n, hv, rfl⟩
    rw [State.pop_of_pos hn (show s.advance.sp = _ from e)] at h
    cases h
    exact .inl ⟨n, hn, e, rfl⟩

/-- CALL pushes the address after itself, or overflows. -/
theorem exec_call_cases {nnn : Addr12} (h : exec (.call nnn) s = .next t) :
    (∃ hlt : s.sp.val < 16, t = { s with
      pc := addrOperand nnn, stack := s.stack.set s.sp.val (s.pc + 2) hlt,
      sp := ⟨s.sp.val + 1, Nat.succ_lt_succ hlt⟩ }) ∨
    s.sp.val = 16 ∧ t = s.enterFault .stackOverflow := by
  change s.finish ((s.advance.push s.advance.pc).map fun u => u.writePc (addrOperand nnn)) = .next t at h
  by_cases hlt : s.sp.val < 16
  · rw [State.push_of_lt (show s.advance.sp.val < 16 from hlt)] at h
    cases h
    exact .inl ⟨hlt, rfl⟩
  · have h16 : s.sp.val = 16 := by have := s.sp.isLt; omega
    rw [State.push_of_full (show s.advance.sp = 16 from Fin.ext h16)] at h
    cases h
    exact .inr ⟨h16, rfl⟩

/-- SKP tests the named key, or raises `KEY_RANGE`. -/
theorem exec_skp_cases {x : Reg} (h : exec (.skp x) s = .next t) :
    (∃ hk : (s.readV x).toNat < 16, t = s.advance.skipIf (s.keyDown ⟨_, hk⟩)) ∨
    16 ≤ (s.readV x).toNat ∧ t = s.enterFault .keyRange := by
  change s.finish ((keyOfByte (s.readV x)).map fun k => s.advance.skipIf (s.keyDown k)) = .next t at h
  by_cases hk : (s.readV x).toNat < 16
  · rw [keyOfByte_of_lt hk] at h
    cases h
    exact .inl ⟨hk, rfl⟩
  · rw [keyOfByte_of_le (by omega)] at h
    cases h
    exact .inr ⟨by omega, rfl⟩

/-- SKNP tests the named key, or raises `KEY_RANGE`. -/
theorem exec_sknp_cases {x : Reg} (h : exec (.sknp x) s = .next t) :
    (∃ hk : (s.readV x).toNat < 16, t = s.advance.skipIf (!s.keyDown ⟨_, hk⟩)) ∨
    16 ≤ (s.readV x).toNat ∧ t = s.enterFault .keyRange := by
  change s.finish ((keyOfByte (s.readV x)).map fun k => s.advance.skipIf (!s.keyDown k)) = .next t at h
  by_cases hk : (s.readV x).toNat < 16
  · rw [keyOfByte_of_lt hk] at h
    cases h
    exact .inl ⟨hk, rfl⟩
  · rw [keyOfByte_of_le (by omega)] at h
    cases h
    exact .inr ⟨by omega, rfl⟩

/-- LD B changes memory alone, or raises `MEM_RANGE`. -/
theorem exec_ldB_cases {x : Reg} (h : exec (.ldB x) s = .next t) :
    (s.i.toNat + 2 ≤ 0xFFF ∧ ∃ m, t = { s.advance with mem := m } ∧
      (Memory.wf s.cfg.font s.mem = true → Memory.wf s.cfg.font m = true)) ∨
    0xFFF < s.i.toNat + 2 ∧ t = s.enterFault .memRange := by
  change s.finish (s.advance.storeDigits (s.readV x)) = .next t at h
  rcases State.storeDigits_spec s.advance (s.readV x) with ⟨hle, m, hm, hwf, -⟩ | ⟨hlt, he⟩
  · rw [hm] at h
    cases h
    exact .inl ⟨hle, m, rfl, hwf⟩
  · rw [he] at h
    cases h
    exact .inr ⟨hlt, rfl⟩

/-- LD [I], Vx changes memory alone, or raises `MEM_RANGE`. -/
theorem exec_stBlock_cases {x : Reg} (h : exec (.stBlock x) s = .next t) :
    (s.i.toNat + x.val ≤ 0xFFF ∧ ∃ m, t = { s.advance with mem := m } ∧
      (Memory.wf s.cfg.font s.mem = true → Memory.wf s.cfg.font m = true)) ∨
    0xFFF < s.i.toNat + x.val ∧ t = s.enterFault .memRange := by
  change s.finish (s.advance.storeRegs (x.val + 1)) = .next t at h
  rcases State.storeRegs_spec s.advance (x.val + 1) with ⟨hle, m, hm, hwf, -⟩ | ⟨hlt, he⟩
  · rw [hm] at h
    cases h
    exact .inl ⟨by simp at hle; omega, m, rfl, hwf⟩
  · rw [he] at h
    cases h
    exact .inr ⟨by simp at hlt; omega, rfl⟩

/-- LD Vx, [I] changes `V[0] .. V[X]` alone, or raises `MEM_RANGE`. -/
theorem exec_ldBlock_cases {x : Reg} (h : exec (.ldBlock x) s = .next t) :
    (s.i.toNat + x.val ≤ 0xFFF ∧ ∃ w, t = { s.advance with v := w } ∧
      ∀ q : Reg, w.get q = if q ≤ x then s.byteAt (s.i.toNat + q.val) else s.readV q) ∨
    0xFFF < s.i.toNat + x.val ∧ t = s.enterFault .memRange := by
  change s.finish (s.advance.loadRegs (x.val + 1)) = .next t at h
  rcases State.loadRegs_spec s.advance (x.val + 1) (by omega) with ⟨hle, w, hw, hr⟩ | ⟨hlt, he⟩
  · rw [hw] at h
    cases h
    refine .inl ⟨by simp at hle; omega, w, rfl, fun q => ?_⟩
    rw [hr q, State.advance_byteAt, State.advance_readV, State.advance_i]
    by_cases hq : q ≤ x
    · rw [if_pos hq, if_pos (by have : q.val ≤ x.val := hq; omega)]
    · rw [if_neg hq, if_neg (by intro h'; exact hq (show q.val ≤ x.val by omega))]
  · rw [he] at h
    cases h
    exact .inr ⟨by simp at hlt; omega, rfl⟩

/-- DRW draws the rows at `I`, or raises `MEM_RANGE`. -/
theorem exec_drw_cases {x y : Reg} {n : Nibble} (h : exec (.drw x y n) s = .next t) :
    ((s.i.toNat + n.toNat ≤ 0x1000 ∨ n = 0) ∧ t = s.advance.blit (s.readV x) (s.readV y)
      ((List.range n.toNat).map fun r => s.byteAt (s.i.toNat + r))) ∨
    0x1000 < s.i.toNat + n.toNat ∧ n ≠ 0 ∧ t = s.enterFault .memRange := by
  change s.finish ((s.advance.readRows n.toNat).map fun rows =>
    s.advance.blit (s.readV x) (s.readV y) rows) = .next t at h
  rw [State.readRows_eq] at h
  have hn : n.toNat = 0 ↔ n = 0 := ⟨fun e => BitVec.eq_of_toNat_eq (by simpa using e), fun e => by rw [e]; rfl⟩
  split at h
  next hle =>
    cases h
    exact .inl ⟨by rwa [← hn], rfl⟩
  next hlt =>
    cases h
    rw [hn] at hlt
    exact .inr ⟨by have := not_or.1 hlt; simp at this; omega, fun e => hlt (.inr e), rfl⟩

/-- LD Vx, K takes the lowest key, or stays where it is and changes nothing. -/
theorem exec_ldK_cases {x : Reg} (h : exec (.ldK x) s = .next t) :
    (∃ k, lowestKey s.key = some k ∧ t = s.advance.writeV x (BitVec.ofNat 8 k.val)) ∨
    lowestKey s.key = none ∧ t = s := by
  change Host.Outcome.next (match lowestKey s.key with
    | some k => s.advance.writeV x (BitVec.ofNat 8 k.val)
    | none => s.advance.writePc (s.advance.pc - 2)) = .next t at h
  split at h
  next k hk => cases h; exact .inl ⟨k, hk, rfl⟩
  next hk =>
    cases h
    refine .inr ⟨hk, ?_⟩
    change { s with pc := s.pc + 2 - 2 } = s
    rw [show s.pc + 2 - 2 = s.pc by bv_omega]

end Sys2Proof.Machine
end

