-- ==== Sys2Proof/Laws/PerInstr.lean ====
section
/-! SUPPORT. One fact per instruction: its canonical encoding lies in its row of spec/opcode_table.json,
that is, under the row's mask it is the row's match value. -/

namespace Sys2Proof.Laws

/-- The mask of an instruction's row in spec/opcode_table.json. -/
def rowMask : Instr → Word
  | .cls | .ret | .ldReg _ _ | .orReg _ _ | .andReg _ _ | .xorReg _ _ | .addReg _ _ | .sub _ _
  | .shr _ | .subn _ _ | .shl _ | .skp _ | .sknp _ => 0xF00F
  | .jp _ | .call _ | .seImm _ _ | .sneImm _ _ | .seReg _ _ | .ldImm _ _ | .addImm _ _ | .sneReg _ _
  | .ldI _ | .jpV0 _ | .rnd _ _ | .drw _ _ _ | .unknown0 _ | .unknown8 _ | .unknownE _
  | .unknownF _ => 0xF000
  | .ldVxDt _ | .ldK _ | .ldDt _ | .ldSt _ | .addI _ | .ldF _ | .ldB _ | .stBlock _ | .ldBlock _ => 0xF0FF

/-- The match value of an instruction's row in spec/opcode_table.json. -/
def rowMatch : Instr → Word
  | .cls => 0x0000
  | .ret => 0x000E
  | .jp _ => 0x1000
  | .call _ => 0x2000
  | .seImm _ _ => 0x3000
  | .sneImm _ _ => 0x4000
  | .seReg _ _ => 0x5000
  | .ldImm _ _ => 0x6000
  | .addImm _ _ => 0x7000
  | .ldReg _ _ => 0x8000
  | .orReg _ _ => 0x8001
  | .andReg _ _ => 0x8002
  | .xorReg _ _ => 0x8003
  | .addReg _ _ => 0x8004
  | .sub _ _ => 0x8005
  | .shr _ => 0x8006
  | .subn _ _ => 0x8007
  | .shl _ => 0x800E
  | .sneReg _ _ => 0x9000
  | .ldI _ => 0xA000
  | .jpV0 _ => 0xB000
  | .rnd _ _ => 0xC000
  | .drw _ _ _ => 0xD000
  | .skp _ => 0xE00E
  | .sknp _ => 0xE001
  | .ldVxDt _ => 0xF007
  | .ldK _ => 0xF00A
  | .ldDt _ => 0xF015
  | .ldSt _ => 0xF018
  | .addI _ => 0xF01E
  | .ldF _ => 0xF029
  | .ldB _ => 0xF033
  | .stBlock _ => 0xF055
  | .ldBlock _ => 0xF065
  | .unknown0 _ => 0x0000
  | .unknown8 _ => 0x8000
  | .unknownE _ => 0xE000
  | .unknownF _ => 0xF000

/-- Under its row's mask, the canonical encoding is the row's match value. -/
def TableRow.Statement (i : Instr) : Prop := encode i &&& rowMask i = rowMatch i

theorem encodeA_mask (f : Nibble) (nnn : Addr12) : encodeA f nnn &&& 0xF000 = encodeA f 0 := by
  apply BitVec.eq_of_getLsbD_eq
  intro i hi
  simp only [BitVec.getLsbD_and, encodeA_getLsbD]
  interval_cases i <;> simp

theorem encodeXK_mask_family (f : Nibble) (x : Reg) (kk : Byte) :
    encodeXK f x kk &&& 0xF000 = encodeA f 0 := by
  apply BitVec.eq_of_getLsbD_eq
  intro i hi
  simp only [BitVec.getLsbD_and, encodeA_getLsbD, encodeXK_getLsbD]
  interval_cases i <;> simp [regField]

theorem encodeXK_mask_byte (f : Nibble) (x : Reg) (kk : Byte) :
    encodeXK f x kk &&& 0xF0FF = encodeXK f 0 kk := by
  apply BitVec.eq_of_getLsbD_eq
  intro i hi
  simp only [BitVec.getLsbD_and, encodeXK_getLsbD]
  interval_cases i <;> simp [regField]

theorem encodeXK_mask_nibble (f : Nibble) (x : Reg) (kk : Byte) :
    encodeXK f x kk &&& 0xF00F = encodeXYN f 0 0 (kk.setWidth 4) := by
  apply BitVec.eq_of_getLsbD_eq
  intro i hi
  simp only [BitVec.getLsbD_and, encodeXK_getLsbD, encodeXYN_getLsbD, BitVec.getLsbD_setWidth]
  interval_cases i <;> simp [regField]

theorem encodeXYN_mask_family (f n : Nibble) (x y : Reg) :
    encodeXYN f x y n &&& 0xF000 = encodeA f 0 := by
  apply BitVec.eq_of_getLsbD_eq
  intro i hi
  simp only [BitVec.getLsbD_and, encodeA_getLsbD, encodeXYN_getLsbD]
  interval_cases i <;> simp [regField]

theorem encodeXYN_mask_nibble (f n : Nibble) (x y : Reg) :
    encodeXYN f x y n &&& 0xF00F = encodeXYN f 0 0 n := by
  apply BitVec.eq_of_getLsbD_eq
  intro i hi
  simp only [BitVec.getLsbD_and, encodeXYN_getLsbD]
  interval_cases i <;> simp [regField]

theorem TableRow.cls : TableRow.Statement .cls := by unfold TableRow.Statement; decide
theorem TableRow.ret : TableRow.Statement .ret := by unfold TableRow.Statement; decide
theorem TableRow.jp (nnn : Addr12) : TableRow.Statement (.jp nnn) := encodeA_mask ..
theorem TableRow.call (nnn : Addr12) : TableRow.Statement (.call nnn) := encodeA_mask ..
theorem TableRow.seImm (x : Reg) (kk : Byte) : TableRow.Statement (.seImm x kk) := encodeXK_mask_family ..
theorem TableRow.sneImm (x : Reg) (kk : Byte) : TableRow.Statement (.sneImm x kk) := encodeXK_mask_family ..
theorem TableRow.seReg (x : Reg) (y : Reg) : TableRow.Statement (.seReg x y) := encodeXYN_mask_family ..
theorem TableRow.ldImm (x : Reg) (kk : Byte) : TableRow.Statement (.ldImm x kk) := encodeXK_mask_family ..
theorem TableRow.addImm (x : Reg) (kk : Byte) : TableRow.Statement (.addImm x kk) := encodeXK_mask_family ..
theorem TableRow.ldReg (x : Reg) (y : Reg) : TableRow.Statement (.ldReg x y) := encodeXYN_mask_nibble ..
theorem TableRow.orReg (x : Reg) (y : Reg) : TableRow.Statement (.orReg x y) := encodeXYN_mask_nibble ..
theorem TableRow.andReg (x : Reg) (y : Reg) : TableRow.Statement (.andReg x y) := encodeXYN_mask_nibble ..
theorem TableRow.xorReg (x : Reg) (y : Reg) : TableRow.Statement (.xorReg x y) := encodeXYN_mask_nibble ..
theorem TableRow.addReg (x : Reg) (y : Reg) : TableRow.Statement (.addReg x y) := encodeXYN_mask_nibble ..
theorem TableRow.sub (x : Reg) (y : Reg) : TableRow.Statement (.sub x y) := encodeXYN_mask_nibble ..
theorem TableRow.shr (x : Reg) : TableRow.Statement (.shr x) := encodeXYN_mask_nibble ..
theorem TableRow.subn (x : Reg) (y : Reg) : TableRow.Statement (.subn x y) := encodeXYN_mask_nibble ..
theorem TableRow.shl (x : Reg) : TableRow.Statement (.shl x) := encodeXYN_mask_nibble ..
theorem TableRow.sneReg (x : Reg) (y : Reg) : TableRow.Statement (.sneReg x y) := encodeXYN_mask_family ..
theorem TableRow.ldI (nnn : Addr12) : TableRow.Statement (.ldI nnn) := encodeA_mask ..
theorem TableRow.jpV0 (nnn : Addr12) : TableRow.Statement (.jpV0 nnn) := encodeA_mask ..
theorem TableRow.rnd (x : Reg) (kk : Byte) : TableRow.Statement (.rnd x kk) := encodeXK_mask_family ..
theorem TableRow.drw (x : Reg) (y : Reg) (n : Nibble) : TableRow.Statement (.drw x y n) := encodeXYN_mask_family ..
theorem TableRow.skp (x : Reg) : TableRow.Statement (.skp x) := encodeXK_mask_nibble ..
theorem TableRow.sknp (x : Reg) : TableRow.Statement (.sknp x) := encodeXK_mask_nibble ..
theorem TableRow.ldVxDt (x : Reg) : TableRow.Statement (.ldVxDt x) := encodeXK_mask_byte ..
theorem TableRow.ldK (x : Reg) : TableRow.Statement (.ldK x) := encodeXK_mask_byte ..
theorem TableRow.ldDt (x : Reg) : TableRow.Statement (.ldDt x) := encodeXK_mask_byte ..
theorem TableRow.ldSt (x : Reg) : TableRow.Statement (.ldSt x) := encodeXK_mask_byte ..
theorem TableRow.addI (x : Reg) : TableRow.Statement (.addI x) := encodeXK_mask_byte ..
theorem TableRow.ldF (x : Reg) : TableRow.Statement (.ldF x) := encodeXK_mask_byte ..
theorem TableRow.ldB (x : Reg) : TableRow.Statement (.ldB x) := encodeXK_mask_byte ..
theorem TableRow.stBlock (x : Reg) : TableRow.Statement (.stBlock x) := encodeXK_mask_byte ..
theorem TableRow.ldBlock (x : Reg) : TableRow.Statement (.ldBlock x) := encodeXK_mask_byte ..
theorem TableRow.unknown0 (nnn : Addr12) : TableRow.Statement (.unknown0 nnn) := encodeA_mask ..
theorem TableRow.unknown8 (nnn : Addr12) : TableRow.Statement (.unknown8 nnn) := encodeA_mask ..
theorem TableRow.unknownE (nnn : Addr12) : TableRow.Statement (.unknownE nnn) := encodeA_mask ..
theorem TableRow.unknownF (nnn : Addr12) : TableRow.Statement (.unknownF nnn) := encodeA_mask ..

end Sys2Proof.Laws
end

