-- ==== Sys2Proof/Tests/Slice0.lean ====
section
/-! SUPPORT. Tests of the model against the vectors of 95_test_vectors.md and words written out from the
encodings of 30_encoding.md R77, and, for every obligation with hypotheses, a witness that meets them. -/

namespace Sys2Proof.Tests

open Sys2Proof Sys2Proof.Machine

/-! ### Helpers -/

/-- The outcome is a next state with the property. -/
def answers (o : Host.Outcome State Fault Refusal) (p : State → Bool) : Bool :=
  match o with
  | .next t => p t
  | .fault _ => false
  | .refused _ => false

/-- The outcome is the named refusal. -/
def refuses (o : Host.Outcome State Fault Refusal) (r : Refusal) : Bool :=
  match o with
  | .next _ => false
  | .fault _ => false
  | .refused q => decide (q = r)

/-- The construction state with a parameter choice and an address for the next instruction. -/
def base (cfg : Config) (a : Word) : State := { State.construct cfg with pc := a }

/-- One step of an opcode at an address, from the construction state changed by `f` (the conventions of
95_test_vectors.md). -/
def run (cfg : Config) (a op : Word) (f : State → State) (p : State → Bool) : Bool :=
  answers (step ((f (base cfg a)).placeOpcode op)) p

/-- The same at 0x200 under the default parameters. -/
def run0 (op : Word) (f : State → State) (p : State → Bool) : Bool := run Config.default 0x200 op f p

/-- The step entered the cause at its own address and changed nothing else (R203). -/
def faults (a op : Word) (c : Cause) (f : State → State) : Bool :=
  run Config.default a op f fun t => decide (t = ((f (base Config.default a)).placeOpcode op).enterFault c)

/-- Bytes placed in memory. -/
def bytes (a : Nat) (bs : List Byte) (s : State) : State :=
  { s with mem := Memory.writeBytes s.cfg.font s.mem a bs }

/-- The framebuffer with the listed pixels `(x, y)` lit. -/
def lit (ps : List (Fin 64 × Fin 32)) : Framebuffer :=
  ps.foldl (fun fb p => fb.toggle p.1 p.2) clearedFramebuffer

/-- The default parameters with the two alternatives of a flag-writing instruction's order and flag. -/
def rereadConfig : Config := { Config.default with vfOperandOrder := .reread }
def equalFlag0Config : Config := { Config.default with subEqualFlag := false }
def lowByteConfig : Config := { Config.default with decodeKey0 := .lowByte, decodeKeyE := .lowByte }
def refuseConfig : Config := { Config.default with decodeKey0 := .refuse, decodeKeyE := .refuse }

/-! ### Well-formedness: an ill-formed term for each check -/

/-- CLS's and RET's low nibbles are no unknown opcode (R75). -/
theorem test_wf_refuses_unknown0 :
    (Instr.unknown0 0x0E0).wf .lowNibble .lowNibble = false ∧
    (Instr.unknown0 0x12E).wf .lowNibble .lowNibble = false ∧
    (Instr.unknown0 0x3E0).wf .lowByte .lowNibble = false ∧
    (Instr.unknown0 0x0EE).wf .lowByte .lowNibble = false ∧
    (Instr.unknown0 0x120).wf .refuse .lowNibble = false ∧
    (Instr.unknown0 0x123).wf .refuse .lowNibble = true := by decide

/-- An assigned ALU nibble is no unknown opcode (R74). -/
theorem test_wf_refuses_unknown8 :
    (Instr.unknown8 0x127).wf .lowNibble .lowNibble = false ∧
    (Instr.unknown8 0x12E).wf .lowNibble .lowNibble = false ∧
    (Instr.unknown8 0x128).wf .lowNibble .lowNibble = true := by decide

/-- SKP's and SKNP's keys are no unknown opcode (R75). -/
theorem test_wf_refuses_unknownE :
    (Instr.unknownE 0x59E).wf .lowNibble .lowNibble = false ∧
    (Instr.unknownE 0x501).wf .lowNibble .lowNibble = false ∧
    (Instr.unknownE 0x5A1).wf .lowNibble .lowByte = false ∧
    (Instr.unknownE 0x501).wf .lowNibble .refuse = false ∧
    (Instr.unknownE 0x501).wf .lowNibble .lowByte = true := by decide

/-- An assigned misc byte is no unknown opcode (R74). -/
theorem test_wf_refuses_unknownF :
    (Instr.unknownF 0x01E).wf .lowNibble .lowNibble = false ∧
    (Instr.unknownF 0x065).wf .lowNibble .lowNibble = false ∧
    (Instr.unknownF 0x0FF).wf .lowNibble .lowNibble = true := by decide

/-! ### Decoding: every constructor, by a word written out from R77 -/

theorem test_decode_flow :
    decodeTableWord 16 0x00E0 = some .cls ∧ decodeTableWord 16 0x00EE = some .ret ∧
    decodeTableWord 16 0x1234 = some (.jp 0x234) ∧ decodeTableWord 16 0x2FED = some (.call 0xFED) ∧
    decodeTableWord 16 0x3A45 = some (.seImm 0xA 0x45) ∧ decodeTableWord 16 0x4A45 = some (.sneImm 0xA 0x45) ∧
    decodeTableWord 16 0x5AB0 = some (.seReg 0xA 0xB) ∧ decodeTableWord 16 0x9AB0 = some (.sneReg 0xA 0xB) ∧
    decodeTableWord 16 0xB321 = some (.jpV0 0x321) := by decide

theorem test_decode_alu :
    decodeTableWord 16 0x6A3C = some (.ldImm 0xA 0x3C) ∧ decodeTableWord 16 0x7A3C = some (.addImm 0xA 0x3C) ∧
    decodeTableWord 16 0x8AB0 = some (.ldReg 0xA 0xB) ∧ decodeTableWord 16 0x8AB1 = some (.orReg 0xA 0xB) ∧
    decodeTableWord 16 0x8AB2 = some (.andReg 0xA 0xB) ∧ decodeTableWord 16 0x8AB3 = some (.xorReg 0xA 0xB) ∧
    decodeTableWord 16 0x8AB4 = some (.addReg 0xA 0xB) ∧ decodeTableWord 16 0x8AB5 = some (.sub 0xA 0xB) ∧
    decodeTableWord 16 0x8AB6 = some (.shr 0xA) ∧ decodeTableWord 16 0x8AB7 = some (.subn 0xA 0xB) ∧
    decodeTableWord 16 0x8ABE = some (.shl 0xA) ∧ decodeTableWord 16 0xCA0F = some (.rnd 0xA 0x0F) := by
  decide

theorem test_decode_misc :
    decodeTableWord 16 0xA123 = some (.ldI 0x123) ∧ decodeTableWord 16 0xDABC = some (.drw 0xA 0xB 0xC) ∧
    decodeTableWord 16 0xEA9E = some (.skp 0xA) ∧ decodeTableWord 16 0xEAA1 = some (.sknp 0xA) ∧
    decodeTableWord 16 0xFA07 = some (.ldVxDt 0xA) ∧ decodeTableWord 16 0xFA0A = some (.ldK 0xA) ∧
    decodeTableWord 16 0xFA15 = some (.ldDt 0xA) ∧ decodeTableWord 16 0xFA18 = some (.ldSt 0xA) ∧
    decodeTableWord 16 0xFA1E = some (.addI 0xA) ∧ decodeTableWord 16 0xFA29 = some (.ldF 0xA) ∧
    decodeTableWord 16 0xFA33 = some (.ldB 0xA) ∧ decodeTableWord 16 0xFA55 = some (.stBlock 0xA) ∧
    decodeTableWord 16 0xFA65 = some (.ldBlock 0xA) := by decide

/-- Unknown opcodes: W7's four words and the low-byte residue of family 0xE (R74, R75). -/
theorem test_decode_unknown :
    decodeTableWord 16 0x0123 = some (.unknown0 0x123) ∧ decodeTableWord 16 0x800F = some (.unknown8 0x00F) ∧
    decodeTableWord 16 0xE0F5 = some (.unknownE 0x0F5) ∧ decodeTableWord 16 0xF0FF = some (.unknownF 0x0FF) := by
  decide

/-- The ambiguous words under the three keys (R79). -/
theorem test_decode_ambiguous :
    decode .lowNibble .lowNibble 0x0000 = .ok .cls ∧ decode .lowByte .lowByte 0x0000 = .ok (.unknown0 0) ∧
    decode .refuse .refuse 0x0000 = .error .family0 ∧ decode .refuse .refuse 0x01EE = .ok .ret ∧
    decode .lowNibble .lowNibble 0xE0AE = .ok (.skp 0) ∧ decode .lowByte .lowByte 0xE0AE = .ok (.unknownE 0x0AE) ∧
    decode .refuse .refuse 0xE0AE = .error .familyE ∧ decode .refuse .refuse 0xE0A1 = .ok (.sknp 0) := by decide

/-- A byte stream: two bytes are consumed, one byte is too few (R70). -/
theorem test_decodeBytes :
    decodeBytes .lowNibble .lowNibble [0x12, 0x34, 0xAB] = .ok (.jp 0x234, [0xAB]) ∧
    decodeBytes .lowNibble .lowNibble [0x12] = .error .truncated := by decide

/-- R81's spellings and raw data; W1's first word as bytes. -/
theorem test_assemble :
    assemble (.instr (.jp 0x200)) = [0x12, 0x00] ∧ assemble (.shrVxVy 2 3) = [0x82, 0x36] ∧
    assemble (.shlVxVy 3 14) = [0x83, 0xEE] ∧ assemble (.dw 0x81C0) = [0x81, 0xC0] ∧
    assemble (.db 0xAB) = [0xAB] := by decide

theorem test_text :
    (Instr.ldImm 0xA 0xEA).text = "LD VA, 0xea" ∧ (Instr.ldBlock 2).text = "LD V2, [I]" ∧
    (Instr.drw 1 2 2).text = "DRW V1, V2, 2" ∧ (Instr.jpV0 0x206).text = "JP V0, 0x206" := by decide

/-! ### The cycle (V-CYC) -/

/-- W7 and V-CYC2, V-CYC7: unknown opcodes. -/
theorem test_unknown_noop :
    ([0x800F, 0xF0FF, 0xE0F5, 0x0123] : List Word).all (fun op => run0 op id fun t =>
      decide (t = { (base Config.default 0x200).placeOpcode op with pc := 0x202 })) = true := by decide

/-- V-CYC3: `0000` under the three keys. -/
theorem test_zero_word :
    run0 0x0000 (fun s => { s with fb := lit [(3, 4)], dirty := false })
      (fun t => decide (t.fb = lit []) && t.dirty && t.pc == 0x202) = true ∧
    run lowByteConfig 0x200 0x0000 (fun s => { s with fb := lit [(3, 4)] })
      (fun t => decide (t.fb = lit [(3, 4)]) && t.pc == 0x202) = true ∧
    refuses (step ((base refuseConfig 0x200).placeOpcode 0x0000)) (.ambiguousFamily0 0x0000) = true ∧
    refuses (step ((base refuseConfig 0x200).placeOpcode 0xE0AE)) (.ambiguousFamilyE 0xE0AE) = true := by
  decide

/-- V-CYC8 and V-CYC11: the last fetchable address and an odd one. -/
theorem test_fetch_edges :
    run Config.default 0xFFE 0x6011 id (fun t => t.readV 0 == 0x11 && t.pc == 0x1000) = true ∧
    run Config.default 0x201 0x6105 id (fun t => t.readV 1 == 0x05 && t.pc == 0x203) = true := by decide

/-- V-CYC9, V-CYC10: a fetch fault keeps `pc` and records it. -/
theorem test_fetch_range :
    answers (step (base Config.default 0x1000)) (fun t =>
      decide (t = (base Config.default 0x1000).enterFault .fetchRange) && t.faultPc == 0x1000) = true ∧
    answers (step (base Config.default 0xFFF)) (fun t =>
      decide (t = (base Config.default 0xFFF).enterFault .fetchRange) && t.faultPc == 0xFFF) = true := by decide

/-- V-CYC12: a halted engine changes nothing. -/
theorem test_halted :
    answers (step { base Config.default 0x200 with fault := .stackOverflow }) (fun t =>
      decide (t = { base Config.default 0x200 with fault := .stackOverflow })) = true := by decide

/-! ### Control transfer (V-FLOW) -/

/-- V-FLOW1, V-FLOW2: a jump, and the self-jump that is a good end. -/
theorem test_jp :
    run0 0x1234 id (fun t => t.pc == 0x234) = true ∧
    ((base Config.default 0x200).placeOpcode 0x1200).goodEnd = true := by decide

/-- V-FLOW3, V-FLOW4. -/
theorem test_call :
    run Config.default 0x204 0x2210 id (fun t => t.stack.get 0 == 0x206 && t.sp == 1 && t.pc == 0x210) = true ∧
    run0 0x2300 (fun s => { s with sp := 15 })
      (fun t => t.stack.get 15 == 0x202 && t.sp == 16 && t.pc == 0x300) = true := by decide

/-- V-FLOW5. -/
theorem test_call_overflow : faults 0x200 0x2300 .stackOverflow (fun s => { s with sp := 16 }) = true := by decide

/-- V-FLOW6 and V-CYC4: the slot keeps its value. -/
theorem test_ret :
    run Config.default 0x210 0x00EE (fun s => { s with sp := 1, stack := s.stack.set 0 0x206 })
      (fun t => t.sp == 0 && t.pc == 0x206 && t.stack.get 0 == 0x206) = true ∧
    run0 0x001E (fun s => { s with sp := 1, stack := s.stack.set 0 0x206 })
      (fun t => t.sp == 0 && t.pc == 0x206) = true := by decide

/-- V-FLOW7. -/
theorem test_ret_underflow : faults 0x200 0x00EE .stackUnderflow id = true := by decide

/-- V-FLOW8 to V-FLOW11, V-FLOW19. -/
theorem test_skip_byte :
    run Config.default 0x206 0x3305 (·.writeV 3 5) (fun t => t.pc == 0x20A) = true ∧
    run Config.default 0x206 0x3305 (·.writeV 3 4) (fun t => t.pc == 0x208) = true ∧
    run Config.default 0x206 0x4305 (·.writeV 3 4) (fun t => t.pc == 0x20A) = true ∧
    run Config.default 0x206 0x4305 (·.writeV 3 5) (fun t => t.pc == 0x208) = true ∧
    run Config.default 0xFFE 0x3000 id (fun t => t.pc == 0x1002) = true := by decide

/-- V-FLOW13 to V-FLOW16: the low nibble is ignored. -/
theorem test_skip_register :
    run0 0x5123 (fun s => (s.writeV 1 0x7F).writeV 2 0x7F) (fun t => t.pc == 0x204) = true ∧
    run0 0x5120 (fun s => (s.writeV 1 1).writeV 2 2) (fun t => t.pc == 0x202) = true ∧
    run0 0x9120 (fun s => (s.writeV 1 1).writeV 2 2) (fun t => t.pc == 0x204) = true ∧
    run0 0x9110 id (fun t => t.pc == 0x202) = true := by decide

/-- V-FLOW18, V-FLOW20: no mask, and the base is V0. -/
theorem test_jpV0 :
    run0 0xBFFF (·.writeV 0 0xFF) (fun t => t.pc == 0x10FE) = true ∧
    run0 0xB300 (·.writeV 1 0x55) (fun t => t.pc == 0x300) = true := by decide

/-! ### Loads, arithmetic, logic, shifts, random (V-ALU) -/

/-- V-ALU1, V-ALU4, V-ALU5. -/
theorem test_loads_and_add_byte :
    run0 0x6A3C id (fun t => t.readV 0xA == 0x3C && t.pc == 0x202) = true ∧
    run0 0x70FF (fun s => (s.writeV 0 2).writeV vf 0x55) (fun t => t.readV 0 == 1 && t.readV vf == 0x55) = true ∧
    run0 0x8120 (·.writeV 2 0xAB) (fun t => t.readV 1 == 0xAB) = true := by decide

/-- V-ALU6, V-ALU7, V-ALU8. -/
theorem test_logic :
    run0 0x8121 (fun s => ((s.writeV 1 0xF0).writeV 2 0x0F).writeV vf 0x55)
      (fun t => t.readV 1 == 0xFF && t.readV vf == 0x55) = true ∧
    run0 0x8122 (fun s => (s.writeV 1 0xF0).writeV 2 0x3C) (fun t => t.readV 1 == 0x30) = true ∧
    run0 0x8123 (fun s => (s.writeV 1 0xF0).writeV 2 0x3C) (fun t => t.readV 1 == 0xCC) = true := by decide

/-- V-ALU9 (W3), V-ALU12, V-ALU13. -/
theorem test_add :
    run0 0x8124 (fun s => (s.writeV 1 0xFF).writeV 2 1) (fun t => t.readV 1 == 0 && t.readV vf == 1) = true ∧
    run0 0x8F14 (fun s => (s.writeV vf 5).writeV 1 1) (fun t => t.readV vf == 6) = true ∧
    run0 0x81F4 (fun s => (s.writeV vf 0xFF).writeV 1 1) (fun t => t.readV 1 == 0 && t.readV vf == 1) = true := by
  decide

/-- V-ALU14 (W4), V-ALU16 under both values of `SUB_EQUAL_FLAG`. -/
theorem test_sub :
    run0 0x8125 (fun s => (s.writeV 1 1).writeV 2 2) (fun t => t.readV 1 == 0xFF && t.readV vf == 0) = true ∧
    run0 0x8125 (fun s => (s.writeV 1 5).writeV 2 5) (fun t => t.readV 1 == 0 && t.readV vf == 1) = true ∧
    run equalFlag0Config 0x200 0x8125 (fun s => (s.writeV 1 5).writeV 2 5)
      (fun t => t.readV 1 == 0 && t.readV vf == 0) = true := by decide

/-- V-ALU17, V-ALU18, V-ALU19 under both operand orders. -/
theorem test_sub_vf :
    run0 0x8F15 (fun s => (s.writeV vf 5).writeV 1 0x10) (fun t => t.readV vf == 0xF5) = true ∧
    run rereadConfig 0x200 0x8F15 (fun s => (s.writeV vf 5).writeV 1 0x10) (fun t => t.readV vf == 0xF0) = true ∧
    run rereadConfig 0x200 0x81F5 (fun s => (s.writeV vf 5).writeV 1 0x10)
      (fun t => t.readV 1 == 0x0F && t.readV vf == 1) = true ∧
    run rereadConfig 0x200 0x8FF5 (·.writeV vf 0x33) (fun t => t.readV vf == 0) = true := by decide

/-- V-ALU23, V-ALU24, V-ALU26, V-ALU27. -/
theorem test_subn :
    run0 0x8347 (fun s => (s.writeV 3 0xFE).writeV 4 7) (fun t => t.readV 3 == 9 && t.readV vf == 0) = true ∧
    run0 0x8347 (fun s => (s.writeV 3 7).writeV 4 0xFE) (fun t => t.readV 3 == 0xF7 && t.readV vf == 1) = true ∧
    run rereadConfig 0x200 0x8F17 (fun s => (s.writeV vf 5).writeV 1 0x10) (fun t => t.readV vf == 0x0F) = true ∧
    run rereadConfig 0x200 0x81F7 (fun s => (s.writeV vf 5).writeV 1 0x10)
      (fun t => t.readV 1 == 0xF0 && t.readV vf == 0) = true := by decide

/-- V-ALU21, V-ALU22. -/
theorem test_shr :
    run0 0x8236 (fun s => (s.writeV 2 0x80).writeV 3 1) (fun t => t.readV 2 == 0x40 && t.readV vf == 0) = true ∧
    run0 0x8F06 (·.writeV vf 5) (fun t => t.readV vf == 2) = true ∧
    run rereadConfig 0x200 0x8F06 (·.writeV vf 5) (fun t => t.readV vf == 0) = true := by decide

/-- V-ALU30, V-ALU31. -/
theorem test_shl :
    run0 0x835E (fun s => (s.writeV 3 0xFF).writeV 5 1) (fun t => t.readV 3 == 0xFE && t.readV vf == 1) = true ∧
    run0 0x8F0E (·.writeV vf 0x81) (fun t => t.readV vf == 2) = true ∧
    run rereadConfig 0x200 0x8F0E (·.writeV vf 0x81) (fun t => t.readV vf == 2) = true := by decide

/-- V-ALU33: with a zero mask the draw does not show, and the count of draws rises. -/
theorem test_rnd : ∃ t, exec (.rnd 0 0x00) State.reset = .next t ∧ t.readV 0 = 0 ∧ t.draws = 1 :=
  ⟨_, rfl, by change Config.drawByte 0 &&& 0 = 0; exact BitVec.and_zero, rfl⟩

/-! ### Index register and memory (V-IDX) -/

/-- V-IDX1, V-IDX8, V-IDX10. -/
theorem test_index_loads :
    run0 0xA123 id (fun t => t.i == 0x123) = true ∧
    run0 0xF029 (·.writeV 0 5) (fun t => t.i == 0x069) = true ∧
    run0 0xF029 (·.writeV 0 0xFF) (fun t => t.i == 0x54B) = true := by decide

/-- V-IDX3 under both values of `ADDI_FLAG_CLEAR`, V-IDX4 to V-IDX7. -/
theorem test_addI :
    run0 0xF11E (fun s => ((s.writeI 0x100).writeV 1 5).writeV vf 0x77)
      (fun t => t.i == 0x105 && t.readV vf == 0) = true ∧
    run { Config.default with addiFlagClear := false } 0x200 0xF11E
      (fun s => ((s.writeI 0x100).writeV 1 5).writeV vf 0x77) (fun t => t.i == 0x105 && t.readV vf == 0x77) = true ∧
    run0 0xF11E (·.writeI 0xFFF) (fun t => t.i == 0xFFF && t.readV vf == 0) = true ∧
    run0 0xF11E (·.writeI 0x1000) (fun t => t.i == 0x1000 && t.readV vf == 1) = true ∧
    run0 0xF11E (fun s => (s.writeI 0xFFFF).writeV 1 1) (fun t => t.i == 0 && t.readV vf == 1) = true ∧
    run0 0xFF1E (fun s => (s.writeI 0xFF0).writeV vf 0x10) (fun t => t.i == 0x1000 && t.readV vf == 1) = true := by
  decide

/-- V-IDX11 (W8), V-IDX12. -/
theorem test_bcd :
    run0 0xF033 (fun s => (s.writeI 0x300).writeV 0 0xEA)
      (fun t => t.byteAt 0x300 == 2 && t.byteAt 0x301 == 3 && t.byteAt 0x302 == 4 && t.i == 0x300) = true ∧
    run0 0xF033 (fun s => (s.writeI 0x300).writeV 0 0xFF)
      (fun t => t.byteAt 0x300 == 2 && t.byteAt 0x301 == 5 && t.byteAt 0x302 == 5) = true := by decide

/-- V-IDX15: no byte is written. -/
theorem test_bcd_range :
    faults 0x200 0xF033 .memRange (fun s => (s.writeI 0xFFE).writeV 0 0x7B) = true := by decide

/-- V-IDX16, V-IDX18. -/
theorem test_block_store :
    run0 0xF255 (fun s => (((s.writeI 0x300).writeV 0 1).writeV 1 2).writeV 2 3)
      (fun t => t.byteAt 0x300 == 1 && t.byteAt 0x301 == 2 && t.byteAt 0x302 == 3 && t.byteAt 0x303 == 0 &&
        t.i == 0x300 && Memory.wf t.cfg.font t.mem) = true ∧
    faults 0x200 0xFF55 .memRange (·.writeI 0xFF1) = true := by decide

/-- V-IDX19, V-IDX21. -/
theorem test_block_load :
    run0 0xF265 (fun s => bytes 0x300 [2, 3, 4] (s.writeI 0x300))
      (fun t => t.readV 0 == 2 && t.readV 1 == 3 && t.readV 2 == 4 && t.readV 3 == 0 && t.i == 0x300) = true ∧
    faults 0x200 0xF165 .memRange (·.writeI 0xFFF) = true := by decide

/-- The font in blank memory (R231), its edges, and the canonical form after overwriting and restoring a
font byte. -/
theorem test_memory_blank :
    State.reset.byteAt 0x050 = 0xF0 ∧ State.reset.byteAt 0x09F = 0x80 ∧ State.reset.byteAt 0x073 = 0xF0 ∧
    State.reset.byteAt 0x04F = 0 ∧ State.reset.byteAt 0x0A0 = 0 ∧
    ((State.reset.writeByte 0x050 1).writeByte 0x050 0xF0).mem = [] ∧
    ((State.reset.writeByte 0x300 1).writeByte 0x050 0).mem = [(0x050, 0), (0x300, 1)] := by decide

/-! ### Timers and keypad (V-TK) -/

/-- V-TK1, V-TK2, V-TK4. -/
theorem test_timer_access :
    run0 0xF007 (fun s => { s with dt := 0x3C }) (fun t => t.readV 0 == 0x3C && t.dt == 0x3C) = true ∧
    run0 0xFA15 (·.writeV 0xA 0x3C) (fun t => t.dt == 0x3C && t.st == 0) = true ∧
    run0 0xF118 (fun s => { s with st := 5 }) (fun t => t.st == 0) = true := by decide

/-- V-TK5 to V-TK8. -/
theorem test_key_skips :
    run Config.default 0x300 0xE59E (fun s => (s.writeV 5 7).pressKey 7 true) (fun t => t.pc == 0x304) = true ∧
    run Config.default 0x300 0xE59E (·.writeV 5 7) (fun t => t.pc == 0x302) = true ∧
    run Config.default 0x300 0xE5A1 (·.writeV 5 7) (fun t => t.pc == 0x304) = true ∧
    run Config.default 0x300 0xE5A1 (fun s => (s.writeV 5 7).pressKey 7 true) (fun t => t.pc == 0x302) = true := by
  decide

/-- V-TK9, V-TK10. -/
theorem test_key_range :
    faults 0x200 0xE09E .keyRange (·.writeV 0 0x10) = true ∧
    faults 0x200 0xE0A1 .keyRange (·.writeV 0 0xFF) = true := by decide

/-- V-TK11, V-TK12: no key, and the lowest of two. -/
theorem test_key_wait :
    run Config.default 0x20A 0xF10A id (fun t =>
      decide (t = (base Config.default 0x20A).placeOpcode 0xF10A)) = true ∧
    run Config.default 0x20A 0xF10A (fun s => (s.pressKey 9 true).pressKey 7 true)
      (fun t => t.readV 1 == 7 && t.pc == 0x20C) = true := by decide

/-! ### Display (V-DSP) -/

/-- V-DSP1. -/
theorem test_cls :
    run0 0x00E0 (fun s => { s with fb := lit [(0, 0), (63, 31)], dirty := false })
      (fun t => decide (t.fb = lit []) && t.dirty) = true := by decide

/-- V-DSP3: both wraps and the bit order. -/
theorem test_drw_wraps :
    run0 0xD122 (fun s => bytes 0x210 [0x81, 0xC0] (((s.writeI 0x210).writeV 1 62).writeV 2 31))
      (fun t => decide (t.fb = lit [(62, 31), (5, 31), (62, 0), (63, 0)]) && t.readV vf == 0 && t.dirty) = true := by
  decide

/-- V-DSP6, V-DSP7, V-DSP8, V-DSP10: VF as a coordinate, a collision, no rows, a row out of range. -/
theorem test_drw_edges :
    run0 0xDFF1 (fun s => bytes 0x210 [0x81] ((s.writeI 0x210).writeV vf 5))
      (fun t => decide (t.fb = lit [(5, 5), (12, 5)]) && t.readV vf == 0) = true ∧
    run0 0xD121 (fun s => bytes 0x210 [0x81]
      { ((s.writeI 0x210).writeV 1 5).writeV 2 5 with fb := lit [(5, 5)] })
      (fun t => decide (t.fb = lit [(12, 5)]) && t.readV vf == 1) = true ∧
    run0 0xD120 (fun s => { s.writeV vf 1 with dirty := false }) (fun t => t.readV vf == 0 && t.dirty) = true ∧
    faults 0x200 0xD012 .memRange (·.writeI 0xFFF) = true := by decide

/-! ### The tick and the host (V-TICK, V-HOST) -/

/-- V-TICK2 (W6), V-TICK5. -/
theorem test_tick :
    ({ State.reset with st := 1 } : State).tick.2 = true ∧ ({ State.reset with st := 1 } : State).tick.1.st = 0 ∧
    State.reset.tick = (State.reset, false) ∧
    ({ State.reset with fault := .memRange, dt := 5, st := 1 } : State).tick =
      ({ State.reset with fault := .memRange, dt := 4, st := 0 }, true) := by decide

/-- V-HOST1, V-HOST3, V-HOST7. -/
theorem test_host_operations :
    State.reset.perform .present = ({ State.reset with dirty := false }, .frame (lit []) true) ∧
    (State.reset.perform (.key 7 true)).1.key = 0x0080 ∧
    ({ State.reset with fault := .stackUnderflow, faultPc := 0x210 } : State).perform .status =
      ({ State.reset with fault := .stackUnderflow, faultPc := 0x210 }, .faultStatus .stackUnderflow 0x210) := by
  decide

/-- W1's load, and V-HOST6's reset. -/
theorem test_load_and_reset :
    (State.reset.load [0x12, 0x00, 0xAB]).2 = true ∧
    (State.reset.load [0x12, 0x00, 0xAB]).1.mem = [(0x200, 0x12), (0x202, 0xAB)] ∧
    (State.reset.load [0x12, 0x00, 0xAB]).1.romBuf = [0x12, 0x00, 0xAB] ∧
    (({ State.reset with fault := .stackOverflow, faultPc := 0x200, romBuf := [0x22, 0x00] } : State).writeV 1 9
      |>.pressKey 4 true).resetOp =
      { State.reset with mem := [(0x200, 0x22)], romBuf := [0x22, 0x00] } := by decide

/-- R201's codes, R34's presentation words. -/
theorem test_codes :
    [Cause.none, .fetchRange, .memRange, .stackOverflow, .stackUnderflow, .keyRange].map Cause.code =
      [0, 1, 2, 3, 4, 5] ∧ presentedPixel true = 0xFFFFFFFF ∧ presentedPixel false = 0 := by decide

/-- A pending turn is taken first, in order, and the engine goes on when none is left. -/
theorem test_turns :
    answers (step { State.reset with dt := 3, schedule := [.agent .tick, .cycle] })
      (fun t => t.dt == 2 && t.pc == 0x200 && decide (t.schedule = [.cycle])) = true ∧
    answers (step ({ State.reset.placeOpcode 0x6A3C with schedule := [.cycle] }))
      (fun t => t.readV 0xA == 0x3C && decide (t.schedule = [])) = true := by decide

/-! ### Witnesses: for every obligation with hypotheses, states and operands that meet them -/

/-- A running state whose next opcode is `6A3C`, for the statements on the cycle. -/
def ready : State := State.reset.placeOpcode 0x6A3C

/-- ConstructionGivesResetValues: the first and last font byte and the two edges of the zero ranges. -/
theorem witness_construction :
    (0 : Nat) < 16 ∧ (0 : Nat) < 5 ∧ 0x050 + 5 * 0 + 0 = 0x050 ∧ (15 : Nat) < 16 ∧ (4 : Nat) < 5 ∧
    0x050 + 5 * 15 + 4 = 0x09F ∧ (0x04F < 0x050 ∨ 0x0A0 ≤ 0x04F) ∧ (0x0A0 < 0x050 ∨ 0x0A0 ≤ 0x0A0) := by decide

/-- ResetRestoresEverythingButRomBuf, RestartEqualsFreshLoad: the longest ROM, an empty one, and addresses
at the edges of the zero ranges for a ROM of two bytes. -/
theorem witness_reset :
    State.romOk { State.reset with romBuf := List.replicate 3584 0xAB } ∧ State.romOk State.reset ∧
    State.romOk { State.reset with romBuf := [0x22, 0x00] } ∧
    (∀ a ∈ [0x04F, 0x0A0, 0x1FF, 0x202, 0xFFF],
      a < 0x050 ∨ (0x0A0 ≤ a ∧ a < 0x200) ∨ 0x200 + [(0x22 : Byte), 0x00].length ≤ a) := by
  refine ⟨?_, Nat.zero_le _, ?_, by decide⟩
  · change (List.replicate 3584 (0xAB : Byte)).length ≤ 3584
    rw [List.length_replicate]
  · change [(0x22 : Byte), 0x00].length ≤ 3584
    decide

/-- StepRunsDecodedInstruction, CycleHaltsOrPerformsOneInstruction: every clause of each. -/
theorem witness_step :
    ready.fault = .none ∧ ready.pc.toNat + 1 ≤ 0xFFF ∧ ready.fetch = .ok 0x6A3C ∧
    decode ready.cfg.decodeKey0 ready.cfg.decodeKeyE
      (ready.byteAt ready.pc.toNat ++ ready.byteAt (ready.pc.toNat + 1)) = .ok (.ldImm 0xA 0x3C) ∧
    decode ready.cfg.decodeKey0 ready.cfg.decodeKeyE 0x6A3C = .ok (.ldImm 0xA 0x3C) ∧
    ready.schedule = [] ∧ ({ ready with schedule := [.cycle, .agent .tick] } : State).schedule =
      .cycle :: [.agent .tick] ∧ ({ ready with fault := .memRange } : State).fault ≠ .none ∧
    ({ ready with fault := .memRange } : State).schedule = [] ∧ (base Config.default 0xFFF).schedule = [] := by
  decide

/-- FetchIsBigEndianAndRangeChecked: the last fetchable address and the first that is not. -/
theorem witness_fetch :
    0xFFF < (base Config.default 0xFFF).pc.toNat + 1 ∧ (base Config.default 0xFFF).fault = .none ∧
    (base Config.default 0xFFE).pc.toNat + 1 ≤ 0xFFF := by decide

/-- The ambiguous set of family 0x0, as the obligations write it. -/
abbrev ambiguousIn0 (op : Word) : Prop :=
  fieldN op = 0x0 ∧ fieldKK op ≠ 0xE0 ∨ fieldN op = 0xE ∧ fieldKK op ≠ 0xEE

/-- The ambiguous set of family 0xE, as the obligations write it. -/
abbrev ambiguousInE (op : Word) : Prop :=
  fieldN op = 0xE ∧ fieldKK op ≠ 0x9E ∨ fieldN op = 0x1 ∧ fieldKK op ≠ 0xA1

/-- A running state whose next opcode is the given one, with both keys `Refuse`. -/
def refusing (op : Word) : State := (base refuseConfig 0x200).placeOpcode op

/-- RefuseRefusesTheAmbiguousSet: each of the four parts of the ambiguous set under `Refuse`. -/
theorem witness_refuse :
    (fieldF 0x0000 = 0x0 ∧ ambiguousIn0 0x0000 ∧ (refusing 0x0000).fetch = .ok 0x0000) ∧
    (fieldF 0x001E = 0x0 ∧ ambiguousIn0 0x001E ∧ (refusing 0x001E).fetch = .ok 0x001E) ∧
    (fieldF 0xE0AE = 0xE ∧ ambiguousInE 0xE0AE ∧ (refusing 0xE0AE).fetch = .ok 0xE0AE) ∧
    (fieldF 0xE0B1 = 0xE ∧ ambiguousInE 0xE0B1 ∧ (refusing 0xE0B1).fetch = .ok 0xE0B1) := by decide

/-- The other premises of RefuseRefusesTheAmbiguousSet, and its clause on the default keys. -/
theorem witness_refuse_keys (op : Word) :
    (refusing op).fault = .none ∧ (refusing op).cfg.decodeKey0 = .refuse ∧
    (refusing op).cfg.decodeKeyE = .refuse ∧ ready.cfg.decodeKey0 = .lowNibble ∧
    ready.cfg.decodeKeyE = .lowNibble ∧ ready.fault = .none := ⟨rfl, rfl, rfl, rfl, rfl, rfl⟩

/-- KeysDifferOnlyOnTheAmbiguousSet: opcodes outside the set in each family, and one in each part. -/
theorem witness_keys :
    (¬(fieldF 0x01E0 = 0x0 ∧ ambiguousIn0 0x01E0) ∧ ¬(fieldF 0x01E0 = 0xE ∧ ambiguousInE 0x01E0)) ∧
    (¬(fieldF 0xE5A1 = 0x0 ∧ ambiguousIn0 0xE5A1) ∧ ¬(fieldF 0xE5A1 = 0xE ∧ ambiguousInE 0xE5A1)) ∧
    (fieldF 0x0000 = 0x0 ∧ fieldN 0x0000 = 0x0 ∧ fieldKK 0x0000 ≠ 0xE0) ∧
    (fieldF 0x00FE = 0x0 ∧ fieldN 0x00FE = 0xE ∧ fieldKK 0x00FE ≠ 0xEE) ∧
    (fieldF 0xE0AE = 0xE ∧ fieldN 0xE0AE = 0xE ∧ fieldKK 0xE0AE ≠ 0x9E) ∧
    (fieldF 0xE0B1 = 0xE ∧ fieldN 0xE0B1 = 0x1 ∧ fieldKK 0xE0B1 ≠ 0xA1) := by decide

/-- DecodeOfEncodeIsTheInstruction, DecodedInstructionsAreWellFormed: an instruction with all its operands,
and an unknown opcode of each family. -/
theorem witness_wf :
    (∀ i ∈ ([.drw 0xA 0xB 0xF, .unknown0 0xFFF, .unknown8 0xFFF, .unknownE 0xFFF, .unknownF 0xFFF] : List Instr),
      i.wf .lowByte .refuse = true) ∧
    decode .lowNibble .lowNibble 0x5AB7 = .ok (.seReg 0xA 0xB) ∧
    decode .lowNibble .lowNibble 0x0120 = .ok .cls := by decide

/-- UnknownOpcodesOnlyAdvancePc: each of the four families. -/
theorem witness_unknown : ∀ i ∈ ([.unknown0 0x123, .unknown8 0x123, .unknownE 0x123, .unknownF 0x123] : List Instr),
    i ∈ [Instr.unknown0 0x123, .unknown8 0x123, .unknownE 0x123, .unknownF 0x123] := by decide

/-- RegisterLoadsWriteOnlyVx: each of the three instructions. -/
theorem witness_loads :
    (Instr.ldImm 0xF 7 = .ldImm 0xF 7 ∧ (7 : Byte) = 7) ∧
    (Instr.ldReg 1 2 = .ldReg 1 2 ∧ (0xAB : Byte) = (State.reset.writeV 2 0xAB).readV 2) ∧
    (Instr.ldVxDt 3 = .ldVxDt 3 ∧ (0 : Byte) = State.reset.dt) := by decide

/-- AddRegistersCarriesIntoVf and the other flag-writing statements: a destination that is not VF, and a
third register. -/
theorem witness_flags : (1 : Reg) ≠ vf ∧ (3 : Reg) ≠ 1 ∧ (3 : Reg) ≠ vf := by decide

/-- SubtractSetsNoBorrow, ReverseSubtractSetsNoBorrow: equal operands under `SUB_EQUAL_FLAG = 0`, and a
`Reread` with VF as each operand. -/
theorem witness_subtract :
    (0 : Byte) = (if ((base equalFlag0Config 0x200).readV 2).toNat < ((base equalFlag0Config 0x200).readV 1).toNat ∨
      (base equalFlag0Config 0x200).readV 1 = (base equalFlag0Config 0x200).readV 2 ∧
        (base equalFlag0Config 0x200).cfg.subEqualFlag = true then 1 else 0) ∧
    (1 : Byte) = (if (((base rereadConfig 0x200).writeV vf 5).readV 1).toNat <
        (((base rereadConfig 0x200).writeV vf 5).readV vf).toNat ∨
      ((base rereadConfig 0x200).writeV vf 5).readV vf = ((base rereadConfig 0x200).writeV vf 5).readV 1 ∧
        ((base rereadConfig 0x200).writeV vf 5).cfg.subEqualFlag = true then 1 else 0) ∧
    (1 : Byte) = (if (base rereadConfig 0x200).cfg.vfOperandOrder = .reread ∧ vf = vf then 1
      else ((base rereadConfig 0x200).writeV vf 5).readV vf) := by decide

/-- ShiftRightKeepsTheLostBit, ShiftLeftKeepsTheLostBit: VF as the destination under each operand order. -/
theorem witness_shift :
    ((vf : Reg) ≠ vf ∨ State.reset.cfg.vfOperandOrder = .snapshot) ∧
    (vf : Reg) = vf ∧ (base rereadConfig 0x200).cfg.vfOperandOrder = .reread ∧
    ((1 : Reg) ≠ vf ∨ (base rereadConfig 0x200).cfg.vfOperandOrder = .snapshot) := by decide

/-- ReturnPopsOrUnderflows, CallPushesOrOverflows, ReturnResumesAfterTheCall: one slot, the last slot, full
and empty. -/
theorem witness_stack :
    (0 : Nat) < 16 ∧ ({ State.reset with sp := 1 } : State).sp.val = 0 + 1 ∧
    (15 : Nat) < 16 ∧ ({ State.reset with sp := 16 } : State).sp.val = 15 + 1 ∧ State.reset.sp = 0 ∧
    State.reset.sp.val < 16 ∧ ({ State.reset with sp := 15 } : State).sp.val < 16 ∧
    ({ State.reset with sp := 16 } : State).sp.val = 16 ∧ (0 : Fin 16).val ≠ ({ State.reset with sp := 15 } : State).sp.val := by
  decide

/-- ReturnResumesAfterTheCall, BlockLoadUndoesBlockStore, StoresAreSeenByTheNextFetch: the later state may
be the state the first instruction gives, and other registers may have changed in it. -/
theorem witness_later_state :
    ∃ t, exec (.call 0x300) State.reset = .next t ∧ (t.writeV 3 9).sp = t.sp ∧ (t.writeV 3 9).stack = t.stack ∧
      (t.writeV 3 9).i = t.i ∧ Part.memory.Same t (t.writeV 3 9) ∧ Part.outside.Same t (t.writeV 3 9) :=
  ⟨_, rfl, rfl, rfl, rfl, fun _ => rfl, rfl, rfl⟩

/-- JumpsSetPc, CallPushesOrOverflows, ReturnPopsOrUnderflows, TimerWritesSetTheirTimer: a jump to its own
address, targets past 0xFFE, a CALL at 0xFFE, a stack within its bound, a register that holds 0. -/
theorem witness_targets :
    (0x200 : Addr12).toNat = State.reset.pc.toNat ∧
    answers (exec (.jp 0xFFF) State.reset) (fun t => decide (0xFFE < t.pc.toNat)) = true ∧
    answers (exec (.jpV0 0xFFF) (State.reset.writeV 0 0xFF)) (fun t => decide (0xFFE < t.pc.toNat)) = true ∧
    (base Config.default 0xFFE).pc = 0xFFE ∧ (base Config.default 0xFFE).sp.val < 16 ∧
    State.reset.readV 0 = 0 ∧ State.pcOk { State.reset with sp := 1 } := by
  unfold State.pcOk
  decide

/-- GoodEndIsAFixedPoint: the jump `1200` at 0x200. -/
theorem witness_good_end :
    (State.reset.placeOpcode 0x1200).goodEnd = true ∧ (State.reset.placeOpcode 0x1200).schedule = [] := by decide

/-- MemoryAccessIsRangeChecked: the last address and the first past it. -/
theorem witness_memory_range : 0xFFF < 0x1000 ∧ 0xFFF ≤ 0xFFF ∧ (0 : Nat) ≠ 0xFFF := by decide

/-- CanonicalMemoriesAreDeterminedByReads: a written byte over the font and one in the program region. -/
theorem witness_canonical :
    Memory.wf Config.defaultFont [(0x050, 0), (0xFFF, 7)] = true ∧
    Memory.wf Config.defaultFont (Memory.write Config.defaultFont [(0x050, 0)] 0xFFF 7) = true ∧
    ∀ a, Memory.read Config.defaultFont [(0x050, 0), (0xFFF, 7)] a =
      Memory.read Config.defaultFont (Memory.write Config.defaultFont [(0x050, 0)] 0xFFF 7) a := by
  have h : Memory.write Config.defaultFont [(0x050, 0)] 0xFFF 7 = [(0x050, 0), (0xFFF, 7)] := by decide
  rw [h]
  exact ⟨by decide, by decide, fun _ => rfl⟩

/-- BcdStoresThreeDigits: the last `I` that stores and the first that faults. -/
theorem witness_bcd :
    indexedAddress (State.reset.writeI 0xFFD).i 2 ≤ 0xFFF ∧ 0xFFF < indexedAddress (State.reset.writeI 0xFFE).i 2 ∧
    0xFFC < indexedAddress (State.reset.writeI 0xFFD).i 0 := by decide

/-- BlockStoreWritesTheRegisters, BlockLoadReadsTheRegisters, BlockLoadUndoesBlockStore: sixteen registers
at the last `I` that holds them, one at 0xFFF, and the first `I` that faults. -/
theorem witness_block :
    indexedAddress (State.reset.writeI 0xFF0).i (0xF : Reg).val ≤ 0xFFF ∧
    indexedAddress (State.reset.writeI 0xFFF).i (0 : Reg).val ≤ 0xFFF ∧
    0xFFF < indexedAddress (State.reset.writeI 0xFF1).i (0xF : Reg).val ∧
    0xFFF < indexedAddress (State.reset.writeI 0x1000).i (0 : Reg).val ∧
    (State.reset.writeI 0xFF0).i.toNat + (0xF : Reg).val ≤ 0xFFF ∧ (0xF : Reg) ≤ 0xF ∧ (0 : Reg) < 1 ∧
    (0xFEF < indexedAddress (State.reset.writeI 0xFF0).i 0 ∨
      indexedAddress (State.reset.writeI 0xFF0).i (0xF : Reg).val < 0xFEF) := by decide

/-- A state whose V0, V1 hold the opcode `6A3C` and whose `I` points past the program. -/
def storing : State := ((State.reset.writeI 0x300).writeV 0 0x6A).writeV 1 0x3C

/-- StoresAreSeenByTheNextFetch: storing V0, V1 and then fetching what they hold. -/
theorem witness_store_fetch :
    storing.i.toNat + (1 : Reg).val ≤ 0xFFF ∧ storing.fault = .none ∧ (0 : Reg) < 1 ∧
    (1 : Reg).val = (0 : Reg).val + 1 ∧
    decode storing.cfg.decodeKey0 storing.cfg.decodeKeyE (storing.readV 0 ++ storing.readV 1) =
      .ok (.ldImm 0xA 0x3C) ∧
    ∃ t, exec (.stBlock 1) storing = .next t ∧ (t.writePc 0x300).pc.toNat = storing.i.toNat + (0 : Reg).val ∧
      Part.memory.Same t (t.writePc 0x300) ∧ Part.outside.Same t (t.writePc 0x300) ∧
      (t.writePc 0x300).fault = .none :=
  ⟨by decide, by decide, by decide, by decide, by decide, _, rfl, rfl, fun _ => rfl, ⟨rfl, rfl⟩, rfl⟩

/-- KeySkipsTestTheNamedKey: the last key and the first value that names none. -/
theorem witness_key_skip :
    ((State.reset.writeV 5 15).readV 5).toNat = (15 : Key).val ∧ 15 < ((State.reset.writeV 5 16).readV 5).toNat := by
  decide

/-- KeyWaitTakesTheLowestKeyOrStays: key 15 alone, and no key. -/
theorem witness_key_wait :
    (State.reset.pressKey 15 true).keyDown 15 = true ∧
    (∀ j : Key, j < 15 → (State.reset.pressKey 15 true).keyDown j = false) ∧
    (∀ k : Key, State.reset.keyDown k = false) ∧ (3 : Key) ≠ 15 := by decide

/-- One sprite row `80` at 0xFFF drawn at the origin, on a clear framebuffer and on a lit pixel. -/
def drawing (fb : Framebuffer) : State := { bytes 0xFFF [0x80] (State.reset.writeI 0xFFF) with fb := fb }

/-- DrawFlipsTheSpritePixels: the last row that fits, no rows at any `I`, the first that does not fit; a
covered pixel, unlit and lit, and an uncovered one. -/
theorem witness_draw :
    ((drawing (lit [])).i.toNat + (1 : Nibble).toNat ≤ 0x1000 ∨ (1 : Nibble) = 0) ∧
    ((State.reset.writeI 0xFFFF).i.toNat + (0 : Nibble).toNat ≤ 0x1000 ∨ (0 : Nibble) = 0) ∧
    0x1000 < (drawing (lit [])).i.toNat + (2 : Nibble).toNat ∧ (2 : Nibble) ≠ 0 ∧
    SpriteCovers (drawing (lit [])) 0 1 1 0 0 ∧ (drawing (lit [])).fb.pixel 0 0 = false ∧
    SpriteCovers (drawing (lit [(0, 0)])) 0 1 1 0 0 ∧ (drawing (lit [(0, 0)])).fb.pixel 0 0 = true ∧
    ¬SpriteCovers (drawing (lit [])) 0 1 0 0 0 := by
  refine ⟨by decide, by decide, by decide, by decide, ⟨0, 0, by decide⟩, by decide, ⟨0, 0, by decide⟩,
    by decide, ?_⟩
  rintro ⟨r, c, hr, -⟩
  exact absurd hr (Nat.not_lt_zero r)

/-- DrawFlipsTheSpritePixels, the clause on VF = 0: no covered pixel of the clear framebuffer is lit. -/
theorem witness_draw_clear : ∀ px py, (drawing (lit [])).fb.pixel px py = false := by decide

/-- DrawingTwiceRestoresTheFramebuffer: on a clear framebuffer the first draw leaves VF at 0. -/
theorem witness_twice :
    (0 : Reg) ≠ vf ∧ (1 : Reg) ≠ vf ∧ (drawing (lit [])).i.toNat + (1 : Nibble).toNat ≤ 0x1000 ∧
    answers (exec (.drw 0 1 1) (drawing (lit []))) (fun t => t.readV vf == 0) = true := by decide

/-- LoadCopiesTheRomOrDoesNothing: a ROM of exactly `ROM_MAX` bytes, and one byte more. -/
theorem witness_load :
    (List.replicate 3584 (0 : Byte)).length ≤ State.reset.cfg.romMax.toNat ∧
    State.reset.cfg.romMax.toNat < (List.replicate 3585 (0 : Byte)).length ∧
    (0x1FF < 0x200 ∨ 0x200 + (List.replicate 3584 (0 : Byte)).length ≤ 0x1FF) := by
  refine ⟨?_, ?_, .inl (by decide)⟩
  · change (List.replicate 3584 (0 : Byte)).length ≤ 3584
    rw [List.length_replicate]
  · change 3584 < (List.replicate 3585 (0 : Byte)).length
    rw [List.length_replicate]
    decide

/-- PendingTurnsAreTakenInOrder: an agent's turn on a halted engine, and a cycle's turn. -/
theorem witness_pending :
    ({ State.reset with fault := .memRange, schedule := [.agent .tick, .cycle] } : State).schedule =
      .agent .tick :: [.cycle] ∧
    ({ State.reset with schedule := [.cycle] } : State).schedule = .cycle :: [] := by decide

/-- KeyPresentAndStatusDoOnlyThat: another key. -/
theorem witness_other_key : (3 : Key) ≠ 7 := by decide

/-- FaultsArePrecise, CausesAreRaisedExactlyWhenListed and the frames over all instructions: an instruction
and a cycle answer a next state from a running state, and each of the conditions is met by one. -/
theorem witness_causes :
    State.reset.fault = .none ∧ (∃ t, State.reset.cycle = .next t) ∧
    (∃ t, (base Config.default 0xFFF).cycle = .next t ∧ t.fault ≠ .none) ∧ (∃ t, exec .cls State.reset = .next t) ∧
    ((1 : Nibble) ≠ 0 ∧ 0xFFF < (State.reset.writeI 0x1000).i.toNat + (1 : Nibble).toNat - 1) ∧
    0xFFF < (State.reset.writeI 0xFFE).i.toNat + 2 ∧ 0xFFF < (State.reset.writeI 0xFF1).i.toNat + (0xF : Reg).val ∧
    ({ State.reset with sp := 16 } : State).sp.val = 16 ∧ State.reset.sp.val = 0 ∧
    15 < ((State.reset.writeV 5 16).readV 5).toNat := by
  refine ⟨rfl, ⟨_, rfl⟩, ⟨_, rfl, by decide⟩, ⟨_, rfl⟩, by decide⟩

/-- OnlyTwoInstructionsWriteMemory, OnlyTheNamedInstructionsWriteIndexStackAndScreen,
InstructionsDoNotCountTimersDown: SHR is none of the named instructions. -/
theorem witness_frames :
    (∃ t, exec (.shr 1) State.reset = .next t) ∧ (∀ x, Instr.shr 1 ≠ .ldB x) ∧ (∀ x, Instr.shr 1 ≠ .stBlock x) ∧
    (∀ nnn, Instr.shr 1 ≠ .ldI nnn) ∧ (∀ x, Instr.shr 1 ≠ .addI x) ∧ (∀ x, Instr.shr 1 ≠ .ldF x) ∧
    (∀ nnn, Instr.shr 1 ≠ .call nnn) ∧ Instr.shr 1 ≠ .ret ∧ Instr.shr 1 ≠ .cls ∧
    (∀ x y n, Instr.shr 1 ≠ .drw x y n) ∧ (∀ x, Instr.shr 1 ≠ .ldDt x) ∧ (∀ x, Instr.shr 1 ≠ .ldSt x) := by
  refine ⟨⟨_, rfl⟩, ?_⟩
  simp

/-- OnlyListedInstructionsWriteVf: `LD V1, byte` is none of the listed writers of VF. -/
theorem witness_vf :
    (∃ t, exec (.ldImm 1 7) State.reset = .next t) ∧
    (∀ x y, Instr.ldImm 1 7 ≠ .addReg x y) ∧ (∀ x y, Instr.ldImm 1 7 ≠ .sub x y) ∧
    (∀ x, Instr.ldImm 1 7 ≠ .shr x) ∧ (∀ x y, Instr.ldImm 1 7 ≠ .subn x y) ∧ (∀ x, Instr.ldImm 1 7 ≠ .shl x) ∧
    (∀ x y n, Instr.ldImm 1 7 ≠ .drw x y n) ∧ (∀ x, Instr.ldImm 1 7 ≠ .addI x) ∧
    (∀ kk, Instr.ldImm 1 7 ≠ .ldImm vf kk ∧ Instr.ldImm 1 7 ≠ .addImm vf kk ∧ Instr.ldImm 1 7 ≠ .rnd vf kk) ∧
    (∀ y, Instr.ldImm 1 7 ≠ .ldReg vf y ∧ Instr.ldImm 1 7 ≠ .orReg vf y ∧ Instr.ldImm 1 7 ≠ .andReg vf y ∧
      Instr.ldImm 1 7 ≠ .xorReg vf y) ∧
    Instr.ldImm 1 7 ≠ .ldVxDt vf ∧ Instr.ldImm 1 7 ≠ .ldK vf ∧ Instr.ldImm 1 7 ≠ .ldBlock vf := by
  refine ⟨⟨_, rfl⟩, ?_⟩
  simp [vf]

/-- RomBufferDirtyAndSoundTimerAreUnobservable: two states that differ in all three. -/
theorem witness_unobservable :
    ∃ t, exec (.ldDt 0) { State.reset with romBuf := [1], dirty := false, st := 9 } = .next t := ⟨_, rfl⟩

/-- EveryStepKeepsTheInvariant: the invariant holds of a state that runs an instruction, of one that holds a
pending reset, and of a halted one. -/
theorem witness_invariant :
    ready.Inv ∧ (∃ t, step ready = .next t) ∧ ({ ready with schedule := [.agent .reset] } : State).Inv ∧
    ({ ready with fault := .memRange, faultPc := 0x200 } : State).Inv := by
  unfold State.Inv State.memoryOk State.romOk State.faultOk State.pcOk
  exact ⟨by decide, ⟨_, rfl⟩, by decide, by decide⟩

/-- OnlyResetLeavesAFault: a halted engine with a pending load of a ROM. -/
theorem witness_halted :
    ({ ready with fault := .memRange, schedule := [.agent (.load [1])] } : State).fault ≠ .none ∧
    (∃ t, step { ready with fault := .memRange, schedule := [.agent (.load [1])] } = .next t) ∧
    ∀ rest, ({ ready with fault := .memRange, schedule := [.agent (.load [1])] } : State).schedule ≠
      .agent .reset :: rest := by
  refine ⟨by decide, ⟨_, rfl⟩, fun rest => ?_⟩
  simp

end Sys2Proof.Tests
end

section
/-! PROOFS. What an instruction changes, field by field: the frames of 10_state.md R24 to R41 over all
instructions. `exec_effect` says once which fields each instruction may write; the frames follow from it. -/

namespace Sys2Proof.Machine

variable {i : Instr} {s t : State}

/-- The registers an instruction may write: its destinations, and VF for the seven of R41. -/
def MayWriteV (i : Instr) (q : Reg) : Prop :=
  match i with
  | .ldImm x _ | .addImm x _ | .rnd x _ | .ldReg x _ | .orReg x _ | .andReg x _ | .xorReg x _
  | .ldVxDt x | .ldK x => q = x
  | .addReg x _ | .sub x _ | .shr x | .subn x _ | .shl x => q = x ∨ q = vf
  | .addI _ | .drw _ _ _ => q = vf
  | .ldBlock x => q ≤ x
  | _ => False

/-- The registers `v` agree with the state's on every register the instruction may not write. -/
def KeepsOtherV (i : Instr) (s : State) (v : Vector Byte 16) : Prop :=
  ∀ q, ¬ MayWriteV i q → v.get q = s.readV q

theorem keepsOtherV_self (i : Instr) (s : State) : KeepsOtherV i s s.v := fun _ _ => rfl

theorem keepsOtherV_writeV {x : Reg} (hx : MayWriteV i x) (b : Byte) :
    KeepsOtherV i s (s.writeV x b).v := by
  intro q hq
  have hne : q ≠ x := fun e => hq (e ▸ hx)
  exact (State.readV_writeV s x q b).trans (if_neg hne)

/-- The states an instruction may answer, by the fields it may write; `fault` and `plain` are open to every
instruction, the others to the one they name. -/
inductive Effect (s : State) : Instr → State → Prop where
  /-- a cause was raised (R203) -/
  | fault (i : Instr) (c : Cause) : Effect s i (s.enterFault c)
  /-- at most `pc`, the registers and the count of draws -/
  | plain (i : Instr) (pc : Word) (v : Vector Byte 16) (draws : Nat) (hv : KeepsOtherV i s v) :
      Effect s i { s with pc := pc, v := v, draws := draws }
  | ldI (nnn : Addr12) (pc w : Word) : Effect s (.ldI nnn) { s with pc := pc, i := w }
  | ldF (x : Reg) (pc w : Word) : Effect s (.ldF x) { s with pc := pc, i := w }
  | addI (x : Reg) (pc w : Word) (v : Vector Byte 16) (hv : KeepsOtherV (.addI x) s v) :
      Effect s (.addI x) { s with pc := pc, i := w, v := v }
  | ret (pc : Word) (sp : Fin 17) : Effect s .ret { s with pc := pc, sp := sp }
  | call (nnn : Addr12) (pc : Word) (stack : Vector Word 16) (sp : Fin 17) :
      Effect s (.call nnn) { s with pc := pc, stack := stack, sp := sp }
  | ldDt (x : Reg) (pc : Word) (b : Byte) : Effect s (.ldDt x) { s with pc := pc, dt := b }
  | ldSt (x : Reg) (pc : Word) (b : Byte) : Effect s (.ldSt x) { s with pc := pc, st := b }
  | ldB (x : Reg) (pc : Word) (m : List Host.Cell) : Effect s (.ldB x) { s with pc := pc, mem := m }
  | stBlock (x : Reg) (pc : Word) (m : List Host.Cell) : Effect s (.stBlock x) { s with pc := pc, mem := m }
  | cls (pc : Word) (fb : Framebuffer) : Effect s .cls { s with pc := pc, fb := fb, dirty := true }
  | drw (x y : Reg) (n : Nibble) (pc : Word) (fb : Framebuffer) (v : Vector Byte 16)
      (hv : KeepsOtherV (.drw x y n) s v) :
      Effect s (.drw x y n) { s with pc := pc, fb := fb, v := v, dirty := true }

/-! ### The updates of one field are plain effects -/

theorem Effect.advance : Effect s i s.advance := .plain i _ _ _ (keepsOtherV_self i s)

theorem Effect.writePc (w : Word) : Effect s i (s.advance.writePc w) :=
  .plain i _ _ _ (keepsOtherV_self i s)

theorem Effect.skipIf (c : Bool) : Effect s i (s.advance.skipIf c) := by
  cases c
  · exact .advance
  · exact .writePc _

theorem Effect.writeV {x : Reg} (hx : MayWriteV i x) (b : Byte) : Effect s i (s.advance.writeV x b) :=
  .plain i _ _ _ (keepsOtherV_writeV hx b)

theorem Effect.writeFlagThen {x : Reg} (hx : MayWriteV i x) (hf : MayWriteV i vf) (f : Bool) (b : Byte) :
    Effect s i (s.advance.writeFlagThen f x b) := by
  refine .plain i _ _ _ fun q hq => ?_
  have hne : q ≠ x := fun e => hq (e ▸ hx)
  have hnf : q ≠ vf := fun e => hq (e ▸ hf)
  exact (State.readV_writeFlagThen s f x q b).trans ((if_neg hne).trans (if_neg hnf))

/-- Either operand order writes VF and then the destination. -/
theorem State.flagOp_eq_writeFlagThen (s : State) (x y : Reg) (f : Byte → Byte → Bool)
    (g : Byte → Byte → Byte) : ∃ c b, s.flagOp x y f g = s.writeFlagThen c x b := by
  unfold State.flagOp
  split
  · exact ⟨_, _, rfl⟩
  · exact ⟨_, _, rfl⟩

theorem Effect.flagOp {x : Reg} (hx : MayWriteV i x) (hf : MayWriteV i vf) (y : Reg)
    (f : Byte → Byte → Bool) (g : Byte → Byte → Byte) : Effect s i (s.advance.flagOp x y f g) := by
  obtain ⟨c, b, e⟩ := State.flagOp_eq_writeFlagThen s.advance x y f g
  exact e ▸ .writeFlagThen hx hf c b

/-- ADD I's flag is a write of VF or nothing. -/
theorem State.writeIndexFlag_eq (s : State) (o : Bool) :
    s.writeIndexFlag o = { s with v := (s.writeIndexFlag o).v } := by
  unfold State.writeIndexFlag
  split
  · rfl
  · split <;> rfl

theorem Effect.writeIndexFlag (x : Reg) (o : Bool) (w : Word) :
    Effect s (.addI x) ((s.advance.writeIndexFlag o).writeI w) := by
  rw [State.writeIndexFlag_eq]
  refine .addI x _ w _ fun q hq => ?_
  exact (State.readV_writeIndexFlag s.advance o q).trans (if_neg hq)

theorem Effect.blit (x y : Reg) (n : Nibble) (a b : Byte) (rows : List Byte) :
    Effect s (.drw x y n) (s.advance.blit a b rows) := by
  refine .drw x y n _ _ _ fun q hq => ?_
  exact (State.readV_blit s.advance a b rows q).trans (if_neg hq)

/-- What an instruction answers is one of its effects. -/
theorem exec_effect (h : exec i s = .next t) : Effect s i t := by
  cases i with
  | cls => cases h; exact .cls ..
  | ret =>
    obtain ⟨n, hn, -, rfl⟩ | ⟨-, rfl⟩ := exec_ret_cases h
    · exact .ret ..
    · exact .fault ..
  | call nnn =>
    obtain ⟨-, rfl⟩ | ⟨-, rfl⟩ := exec_call_cases h
    · exact .call ..
    · exact .fault ..
  | jp | jpV0 => cases h; exact .writePc _
  | seImm | sneImm | seReg | sneReg => cases h; exact .skipIf _
  | skp x =>
    obtain ⟨-, rfl⟩ | ⟨-, rfl⟩ := exec_skp_cases h
    · exact .skipIf _
    · exact .fault ..
  | sknp x =>
    obtain ⟨-, rfl⟩ | ⟨-, rfl⟩ := exec_sknp_cases h
    · exact .skipIf _
    · exact .fault ..
  | ldImm | addImm | ldReg | orReg | andReg | xorReg | ldVxDt => cases h; exact .writeV (by simp [MayWriteV]) _
  | rnd => cases h; exact .plain _ _ _ _ (keepsOtherV_writeV (by simp [MayWriteV]) _)
  | addReg => cases h; exact .writeFlagThen (by simp [MayWriteV]) (by simp [MayWriteV]) _ _
  | sub | shr | subn | shl => cases h; exact .flagOp (by simp [MayWriteV]) (by simp [MayWriteV]) _ _ _
  | ldI => cases h; exact .ldI ..
  | ldF => cases h; exact .ldF ..
  | addI x => cases h; exact .writeIndexFlag x _ _
  | drw x y n =>
    obtain ⟨-, rfl⟩ | ⟨-, -, rfl⟩ := exec_drw_cases h
    · exact .blit x y n _ _ _
    · exact .fault ..
  | ldK x =>
    obtain ⟨k, -, rfl⟩ | ⟨-, rfl⟩ := exec_ldK_cases h
    · exact .writeV (by simp [MayWriteV]) _
    · exact .plain _ _ _ _ (keepsOtherV_self _ _)
  | ldDt => cases h; exact .ldDt ..
  | ldSt => cases h; exact .ldSt ..
  | ldB x =>
    obtain ⟨-, m, rfl, -⟩ | ⟨-, rfl⟩ := exec_ldB_cases h
    · exact .ldB ..
    · exact .fault ..
  | stBlock x =>
    obtain ⟨-, m, rfl, -⟩ | ⟨-, rfl⟩ := exec_stBlock_cases h
    · exact .stBlock ..
    · exact .fault ..
  | ldBlock x =>
    obtain ⟨-, w, rfl, hw⟩ | ⟨-, rfl⟩ := exec_ldBlock_cases h
    · exact .plain _ _ w _ fun q hq => (hw q).trans (if_neg hq)
    · exact .fault ..
  | unknown0 | unknown8 | unknownE | unknownF => cases h; exact .advance

/-! ### The frames that follow -/

theorem Effect.readV_eq (e : Effect s i t) {q : Reg} (hq : ¬ MayWriteV i q) : t.readV q = s.readV q := by
  cases e with
  | plain _ _ _ _ hv | addI _ _ _ _ hv | drw _ _ _ _ _ _ hv => exact hv q hq
  | _ => rfl

theorem Effect.i_eq (e : Effect s i t) (hLdI : ∀ nnn, i ≠ .ldI nnn) (hAddI : ∀ x, i ≠ .addI x)
    (hLdF : ∀ x, i ≠ .ldF x) : t.i = s.i := by
  cases e with
  | ldI nnn => exact absurd rfl (hLdI nnn)
  | addI x => exact absurd rfl (hAddI x)
  | ldF x => exact absurd rfl (hLdF x)
  | _ => rfl

theorem Effect.stack_eq (e : Effect s i t) (hCall : ∀ nnn, i ≠ .call nnn) : t.stack = s.stack := by
  cases e with
  | call nnn => exact absurd rfl (hCall nnn)
  | _ => rfl

theorem Effect.sp_eq (e : Effect s i t) (hCall : ∀ nnn, i ≠ .call nnn) (hRet : i ≠ .ret) : t.sp = s.sp := by
  cases e with
  | call nnn => exact absurd rfl (hCall nnn)
  | ret => exact absurd rfl hRet
  | _ => rfl

theorem Effect.display_same (e : Effect s i t) (hCls : i ≠ .cls) (hDrw : ∀ x y n, i ≠ .drw x y n) :
    Part.display.Same s t := by
  cases e with
  | cls => exact absurd rfl hCls
  | drw x y n => exact absurd rfl (hDrw x y n)
  | _ => exact ⟨rfl, rfl⟩

theorem Effect.dt_eq (e : Effect s i t) (hLdDt : ∀ x, i ≠ .ldDt x) : t.dt = s.dt := by
  cases e with
  | ldDt x => exact absurd rfl (hLdDt x)
  | _ => rfl

theorem Effect.st_eq (e : Effect s i t) (hLdSt : ∀ x, i ≠ .ldSt x) : t.st = s.st := by
  cases e with
  | ldSt x => exact absurd rfl (hLdSt x)
  | _ => rfl

/-- Settles O53: no effect has the keypad, `ROMBUF`, the parameters or the pending turns among its fields. -/
theorem noInstructionWritesKeypadOrRomBuffer : Obligations.NoInstructionWritesKeypadOrRomBuffer := by
  intro i s t h
  cases exec_effect h <;> exact ⟨rfl, rfl, rfl, rfl⟩

/-- Settles O54, from the frames of `I`, the stack and the display. -/
theorem onlyTheNamedInstructionsWriteIndexStackAndScreen :
    Obligations.OnlyTheNamedInstructionsWriteIndexStackAndScreen := by
  intro i s t h
  have e := exec_effect h
  exact ⟨e.i_eq, fun hCall => ⟨e.stack_eq hCall, e.sp_eq hCall⟩, e.display_same⟩

/-- Settles O55, from the frames of the two timers. -/
theorem instructionsDoNotCountTimersDown : Obligations.InstructionsDoNotCountTimersDown := by
  intro i s t h
  have e := exec_effect h
  exact ⟨e.dt_eq, e.st_eq⟩

/-- Settles O56, from the frame of the registers: the hypotheses leave no instruction that may write VF. -/
theorem onlyListedInstructionsWriteVf : Obligations.OnlyListedInstructionsWriteVf := by
  intro i s t h hAddReg hSub hShr hSubn hShl hDrw hAddI hImm hReg hLdVxDt hLdK hLdBlock
  refine (exec_effect h).readV_eq ?_
  cases i with
  | addReg x y => exact absurd rfl (hAddReg x y)
  | sub x y => exact absurd rfl (hSub x y)
  | shr x => exact absurd rfl (hShr x)
  | subn x y => exact absurd rfl (hSubn x y)
  | shl x => exact absurd rfl (hShl x)
  | drw x y n => exact absurd rfl (hDrw x y n)
  | addI x => exact absurd rfl (hAddI x)
  | ldImm x kk => rintro rfl; exact (hImm kk).1 rfl
  | addImm x kk => rintro rfl; exact (hImm kk).2.1 rfl
  | rnd x kk => rintro rfl; exact (hImm kk).2.2 rfl
  | ldReg x y => rintro rfl; exact (hReg y).1 rfl
  | orReg x y => rintro rfl; exact (hReg y).2.1 rfl
  | andReg x y => rintro rfl; exact (hReg y).2.2.1 rfl
  | xorReg x y => rintro rfl; exact (hReg y).2.2.2 rfl
  | ldVxDt x => rintro rfl; exact hLdVxDt rfl
  | ldK x => rintro rfl; exact hLdK rfl
  | ldBlock x => exact fun hle => hLdBlock (congrArg _ (Fin.last_le_iff.1 hle))
  | _ => exact id

end Sys2Proof.Machine
end

section
/-! PROOFS. Noninterference (10_state.md R31, R36, R37): `ROMBUF`, `DIRTY` and `ST` are written by
instructions and never read. Replacing the three commutes with every operation, up to what CLS and DRW
write to `DIRTY` and LD ST to `ST`. -/

namespace Sys2Proof.Machine

/-- The state with the three fields no instruction reads replaced. -/
def State.withUnread (rom : List Byte) (dirty : Bool) (st : Byte) (s : State) : State :=
  { s with romBuf := rom, dirty := dirty, st := st }

variable (s : State) (rom : List Byte) (dirty : Bool) (st : Byte)

/-! ### Operations commute with the replacement -/

theorem State.withUnread_cfg : (s.withUnread rom dirty st).cfg = s.cfg := rfl

theorem State.advance_withUnread :
    (s.withUnread rom dirty st).advance = s.advance.withUnread rom dirty st := rfl

theorem State.skipIf_withUnread (c : Bool) :
    (s.withUnread rom dirty st).skipIf c = (s.skipIf c).withUnread rom dirty st := by
  cases c <;> rfl

theorem State.flagOp_withUnread (x y : Reg) (f : Byte → Byte → Bool) (g : Byte → Byte → Byte) :
    (s.withUnread rom dirty st).flagOp x y f g = (s.flagOp x y f g).withUnread rom dirty st := by
  unfold State.flagOp
  rw [State.withUnread_cfg]
  cases s.cfg.vfOperandOrder <;> rfl

theorem State.writeIndexFlag_withUnread (o : Bool) :
    (s.withUnread rom dirty st).writeIndexFlag o = (s.writeIndexFlag o).withUnread rom dirty st := by
  unfold State.writeIndexFlag
  rw [State.withUnread_cfg]
  cases o <;> cases s.cfg.addiFlagClear <;> rfl

theorem State.memWrite_withUnread (a : Nat) (b : Byte) :
    (s.withUnread rom dirty st).memWrite a b = (s.memWrite a b).map (State.withUnread rom dirty st) := by
  unfold State.memWrite
  split <;> rfl

theorem State.push_withUnread (w : Word) :
    (s.withUnread rom dirty st).push w = (s.push w).map (State.withUnread rom dirty st) := by
  by_cases h : s.sp.val < 16
  · rw [State.push_of_lt h, State.push_of_lt (s := s.withUnread rom dirty st) h]; rfl
  · have h16 : s.sp = 16 := Fin.ext (by have := s.sp.isLt; omega)
    rw [State.push_of_full h16, State.push_of_full (s := s.withUnread rom dirty st) h16]; rfl

theorem State.pop_withUnread : (s.withUnread rom dirty st).pop =
    s.pop.map fun r => (r.1, r.2.withUnread rom dirty st) := by
  rcases h : s.sp with ⟨_ | n, hn⟩
  · rw [State.pop_of_empty h, State.pop_of_empty (s := s.withUnread rom dirty st) h]; rfl
  · rw [State.pop_of_pos hn h, State.pop_of_pos (s := s.withUnread rom dirty st) hn h]; rfl

/-! ### Sequences of operations -/

section
variable {α β : Type}

/-- A map passes through a sequence when it passes through the second operation. -/
theorem bind_map_of_commutes {φ : α → β} {g : α → Except Cause α} {g' : β → Except Cause β}
    (hg : ∀ x, g' (φ x) = (g x).map φ) (e : Except Cause α) : (e.map φ).bind g' = (e.bind g).map φ := by
  cases e with
  | ok x => exact hg x
  | error c => rfl

theorem loop_map_of_commutes {φ : α → β} {body : Nat → α → Except Cause α} {body' : Nat → β → Except Cause β}
    (hb : ∀ k x, body' k (φ x) = (body k x).map φ) (n : Nat) (x : α) :
    loop body' n (φ x) = (loop body n x).map φ := by
  induction n with
  | zero => rfl
  | succ n ih => rw [loop_succ, loop_succ, ih]; exact bind_map_of_commutes (hb n) _
end

theorem State.readRows_withUnread (n : Nat) : (s.withUnread rom dirty st).readRows n = s.readRows n := by
  rw [State.readRows_eq, State.readRows_eq]; rfl

theorem State.storeRegs_withUnread (n : Nat) :
    (s.withUnread rom dirty st).storeRegs n = (s.storeRegs n).map (State.withUnread rom dirty st) :=
  loop_map_of_commutes (fun _ t => t.memWrite_withUnread rom dirty st _ _) n s

theorem State.loadRegs_withUnread (n : Nat) :
    (s.withUnread rom dirty st).loadRegs n = (s.loadRegs n).map (State.withUnread rom dirty st) := by
  refine loop_map_of_commutes (fun k t => ?_) n s
  change (t.memRead (indexedAddress s.i k)).map _ = ((t.memRead (indexedAddress s.i k)).map _).map _
  cases t.memRead (indexedAddress s.i k) <;> rfl

theorem State.storeDigits_withUnread (b : Byte) :
    (s.withUnread rom dirty st).storeDigits b = (s.storeDigits b).map (State.withUnread rom dirty st) := by
  unfold State.storeDigits
  rw [State.memWrite_withUnread,
    bind_map_of_commutes fun t => State.memWrite_withUnread t rom dirty st _ _,
    bind_map_of_commutes fun t => State.memWrite_withUnread t rom dirty st _ _]
  rfl

/-! ### Instructions -/

/-- The answer `o'` is the next state `t` but for the three fields, `ROMBUF` being as given. -/
def AnswersButUnread (t : State) (rom : List Byte) (o' : Host.Outcome State Fault Refusal) : Prop :=
  ∃ dirty' st', o' = .next (t.withUnread rom dirty' st')

variable {s rom dirty st} {t : State}

theorem answersButUnread_next {t' : State} (h : t' = t.withUnread rom dirty st) :
    AnswersButUnread t rom (.next t') := ⟨dirty, st, h ▸ rfl⟩

/-- A handler that commutes with the replacement does so to its cycle's end. -/
theorem finish_answersButUnread {r r' : Except Cause State} (h : s.finish r = .next t)
    (hr : r' = r.map (State.withUnread rom dirty st)) :
    AnswersButUnread t rom ((s.withUnread rom dirty st).finish r') := by
  subst hr
  cases r with
  | ok u => cases h; exact ⟨dirty, st, rfl⟩
  | error c => cases h; exact ⟨dirty, st, rfl⟩

theorem exec_ldK_of_some {x : Reg} {k : Key} (hk : lowestKey s.key = some k) :
    exec (.ldK x) s = .next (s.advance.writeV x (BitVec.ofNat 8 k.val)) := by
  simp only [exec, execLdK, hk]

/-- With no key pressed LD Vx, K moves `pc` back to itself and so changes nothing (R175). -/
theorem exec_ldK_of_none {x : Reg} (hk : lowestKey s.key = none) : exec (.ldK x) s = .next s := by
  obtain ⟨t, h⟩ : ∃ t, exec (.ldK x) s = .next t := ⟨_, rfl⟩
  obtain ⟨k, hk', -⟩ | ⟨-, rfl⟩ := exec_ldK_cases h
  · exact absurd (hk.symm.trans hk') (by simp)
  · exact h

/-- Replacing the three fields before an instruction is replacing them after it, but for what the instruction
itself wrote to `DIRTY` or `ST`. -/
theorem exec_withUnread {i : Instr} (h : exec i s = .next t) :
    AnswersButUnread t rom (exec i (s.withUnread rom dirty st)) := by
  cases i with
  | cls => cases h; exact ⟨true, st, rfl⟩
  | ldSt x => cases h; exact ⟨dirty, s.readV x, rfl⟩
  | drw x y n =>
    change s.finish ((s.advance.readRows n.toNat).map _) = _ at h
    change AnswersButUnread t rom (State.finish _ (((s.advance.withUnread rom dirty st).readRows n.toNat).map _))
    rw [State.readRows_withUnread]
    cases hr : s.advance.readRows n.toNat with
    | ok rows => rw [hr] at h; cases h; exact ⟨true, st, rfl⟩
    | error c => rw [hr] at h; cases h; exact ⟨dirty, st, rfl⟩
  | ret =>
    refine finish_answersButUnread h ?_
    rw [State.advance_withUnread, State.pop_withUnread]
    cases s.advance.pop <;> rfl
  | call nnn =>
    refine finish_answersButUnread h ?_
    change ((s.advance.withUnread rom dirty st).push s.advance.pc).map _ = _
    rw [State.push_withUnread]
    cases s.advance.push s.advance.pc <;> rfl
  | seImm | sneImm | seReg | sneReg =>
    cases h; exact answersButUnread_next (State.skipIf_withUnread s.advance rom dirty st _)
  | skp x | sknp x =>
    refine finish_answersButUnread h ?_
    change (keyOfByte (s.readV x)).map _ = _
    cases keyOfByte (s.readV x) with
    | ok k => exact congrArg _ (State.skipIf_withUnread s.advance rom dirty st _)
    | error c => rfl
  | sub | shr | subn | shl =>
    cases h; exact answersButUnread_next (State.flagOp_withUnread s.advance rom dirty st _ _ _ _)
  | addI x =>
    cases h
    exact answersButUnread_next
      (congrArg (State.writeI · _) (State.writeIndexFlag_withUnread s.advance rom dirty st _))
  | ldK x =>
    obtain ⟨k, hk, rfl⟩ | ⟨hk, rfl⟩ := exec_ldK_cases h
    · exact ⟨dirty, st, exec_ldK_of_some hk⟩
    · exact ⟨dirty, st, exec_ldK_of_none hk⟩
  | ldB x => exact finish_answersButUnread h (State.storeDigits_withUnread s.advance rom dirty st _)
  | stBlock x => exact finish_answersButUnread h (State.storeRegs_withUnread s.advance rom dirty st _)
  | ldBlock x => exact finish_answersButUnread h (State.loadRegs_withUnread s.advance rom dirty st _)
  | jp | jpV0 | ldImm | addImm | ldReg | orReg | andReg | xorReg | addReg | rnd | ldI | ldF | ldVxDt | ldDt
  | unknown0 | unknown8 | unknownE | unknownF => cases h; exact ⟨dirty, st, rfl⟩

/-- Settles O57: every instruction commutes with replacing the three fields. -/
theorem romBufferDirtyAndSoundTimerAreUnobservable : Obligations.RomBufferDirtyAndSoundTimerAreUnobservable :=
  fun _ _ _ _ _ _ h => exec_withUnread h

end Sys2Proof.Machine
end

section
/-! PROOFS. Memory (20_memory.md R50, R51): the checked accesses, which instructions write bytes, and the
canonical form, whose reads determine it. -/

namespace Sys2Proof.Machine

variable {i : Instr} {s t : State}

/-! ### Checked accesses -/

/-- Settles O30, from the two cases of each access and the read after a write. -/
theorem memoryAccessIsRangeChecked : Obligations.MemoryAccessIsRangeChecked := by
  intro s a b
  refine ⟨fun hlt => ⟨State.memRead_of_lt hlt, State.memWrite_of_lt hlt⟩, fun hle =>
    ⟨State.memRead_of_le hle, s.writeByte a b, State.memWrite_of_le hle, ?_, fun q hq => ?_,
      State.writeByte_readV s a b, rfl, fun p hp => ?_⟩⟩
  · rw [State.byteAt_writeByte, if_pos rfl]
  · rw [State.byteAt_writeByte, if_neg hq]
  · cases p with
    | memory => exact absurd (List.mem_singleton.2 rfl) hp
    | stack | timers | display | fault | outside => exact ⟨rfl, rfl⟩
    | index | keypad | rom | draws => rfl

/-! ### Which instructions write bytes -/

theorem Effect.mem_eq (e : Effect s i t) (hLdB : ∀ x, i ≠ .ldB x) (hStBlock : ∀ x, i ≠ .stBlock x) :
    t.mem = s.mem := by
  cases e with
  | ldB x => exact absurd rfl (hLdB x)
  | stBlock x => exact absurd rfl (hStBlock x)
  | _ => rfl

theorem exec_cfg_eq (h : exec i s = .next t) : t.cfg = s.cfg :=
  (noInstructionWritesKeypadOrRomBuffer i s t h).2.2.1

/-- Settles O52: the effects of the other instructions have no memory among their fields. -/
theorem onlyTwoInstructionsWriteMemory : Obligations.OnlyTwoInstructionsWriteMemory := by
  intro i s t h hLdB hStBlock a
  unfold State.byteAt
  rw [exec_cfg_eq h, (exec_effect h).mem_eq hLdB hStBlock]

/-! ### The canonical form -/

variable {font : Font} {m m' : List Host.Cell} {lo lo' : Option Nat}

/-- The first listed address of a canonical memory is the least. -/
theorem Memory.head_le_of_find? {k q : Nat} {w b : Byte}
    (h : Memory.wfAbove font lo ((k, w) :: m) = true) (hq : Memory.find? ((k, w) :: m) q = some b) :
    k ≤ q := by
  by_contra hlt
  have habove : Memory.wfAbove font (some q) ((k, w) :: m) = true := by
    rw [Memory.wfAbove_cons] at h ⊢
    exact ⟨fun l e => by cases e; omega, h.2⟩
  rw [Memory.find?_eq_none_of_wfAbove habove le_rfl] at hq
  cases hq

theorem Memory.find?_cons_self (k : Nat) (w : Byte) (m : List Host.Cell) :
    Memory.find? ((k, w) :: m) k = some w := if_pos rfl

theorem Memory.find?_cons_of_ne {k q : Nat} (hq : q ≠ k) (w : Byte) (m : List Host.Cell) :
    Memory.find? ((k, w) :: m) q = Memory.find? m q := if_neg hq.symm

/-- Memories in canonical form that list the same bytes are the same list: both begin with the least listed
address. -/
theorem Memory.eq_of_find?_eq (h : Memory.wfAbove font lo m = true) (h' : Memory.wfAbove font lo' m' = true)
    (he : ∀ q, Memory.find? m q = Memory.find? m' q) : m = m' := by
  induction m generalizing lo lo' m' with
  | nil =>
    cases m' with
    | nil => rfl
    | cons c' rest' => exact absurd ((he c'.1).trans (Memory.find?_cons_self ..)) nofun
  | cons c rest ih =>
    obtain ⟨k, w⟩ := c
    cases m' with
    | nil => exact absurd ((he k).symm.trans (Memory.find?_cons_self ..)) nofun
    | cons c' rest' =>
      obtain ⟨k', w'⟩ := c'
      have hkk' : k = k' := Nat.le_antisymm
        (Memory.head_le_of_find? h ((he k').trans (Memory.find?_cons_self ..)))
        (Memory.head_le_of_find? h' ((he k).symm.trans (Memory.find?_cons_self ..)))
      subst hkk'
      have hw : w = w' := by simpa [Memory.find?_cons_self] using he k
      subst hw
      rw [Memory.wfAbove_cons] at h h'
      obtain ⟨-, -, -, hrest⟩ := h
      obtain ⟨-, -, -, hrest'⟩ := h'
      have hfind : ∀ q, Memory.find? rest q = Memory.find? rest' q := by
        intro q
        by_cases hq : q = k
        · rw [Memory.find?_eq_none_of_wfAbove hrest hq.le, Memory.find?_eq_none_of_wfAbove hrest' hq.le]
        · rw [← Memory.find?_cons_of_ne hq w rest, he q, Memory.find?_cons_of_ne hq w rest']
      rw [ih hrest hrest' hfind]

/-- Settles O31: reads determine what is listed, and that determines the list. -/
theorem canonicalMemoriesAreDeterminedByReads : Obligations.CanonicalMemoriesAreDeterminedByReads :=
  fun _ _ _ h h' he => Memory.eq_of_find?_eq h h' fun q => Memory.find?_eq_of_read_eq h h' (he q)

end Sys2Proof.Machine
end

section
/-! PROOFS. What a cycle answers (40_cycle.md R90 to R98), said once for each of its branches, and that it
fetches the bytes a block store wrote (20_memory.md R63). -/

namespace Sys2Proof.Machine

variable {i : Instr} {s t : State}

/-! ### Fetch and cycle -/

theorem State.fetch_of_le (h : s.pc.toNat + 1 ≤ 0xFFF) :
    s.fetch = .ok (s.byteAt s.pc.toNat ++ s.byteAt (s.pc.toNat + 1)) := if_neg (by omega)

theorem State.fetch_of_lt (h : 0xFFF < s.pc.toNat + 1) : s.fetch = .error .fetchRange := if_pos h

theorem State.cycle_of_halted (h : s.fault ≠ .none) : s.cycle = .next s := if_pos h

theorem State.cycle_of_fetch_error {c : Cause} (hrun : s.fault = .none) (hf : s.fetch = .error c) :
    s.cycle = .next (s.enterFault c) := by
  unfold State.cycle
  rw [if_neg (not_not_intro hrun), hf]

theorem State.cycle_of_fetch {op : Word} (hrun : s.fault = .none) (hf : s.fetch = .ok op) :
    s.cycle = runDecoded op s (decode s.cfg.decodeKey0 s.cfg.decodeKeyE op) := by
  unfold State.cycle
  rw [if_neg (not_not_intro hrun), hf]

/-- Only a decoded instruction answers a next state; an ambiguous opcode is refused (R97). -/
theorem runDecoded_eq_next {op : Word} {r : Except Ambiguity Instr} (h : runDecoded op s r = .next t) :
    ∃ i, r = .ok i ∧ exec i s = .next t := by
  match r with
  | .ok i => exact ⟨i, rfl, h⟩
  | .error .family0 => cases h
  | .error .familyE => cases h

/-- A cycle that answers a next state: the engine is halted, or the fetch faults, or it runs the instruction
it decoded inside the address space (R98). -/
theorem State.cycle_cases (h : s.cycle = .next t) :
    (s.fault ≠ .none ∧ t = s) ∨
    (s.fault = .none ∧ 0xFFF < s.pc.toNat + 1 ∧ t = s.enterFault .fetchRange) ∨
    (s.fault = .none ∧ s.pc.toNat + 1 ≤ 0xFFF ∧ ∃ i,
      decode s.cfg.decodeKey0 s.cfg.decodeKeyE (s.byteAt s.pc.toNat ++ s.byteAt (s.pc.toNat + 1)) = .ok i ∧
      exec i s = .next t) := by
  by_cases hrun : s.fault = .none
  · right
    by_cases hpc : s.pc.toNat + 1 ≤ 0xFFF
    · rw [State.cycle_of_fetch hrun (State.fetch_of_le hpc)] at h
      exact .inr ⟨hrun, hpc, runDecoded_eq_next h⟩
    · have hlt : 0xFFF < s.pc.toNat + 1 := by omega
      rw [State.cycle_of_fetch_error hrun (State.fetch_of_lt hlt)] at h
      cases h
      exact .inl ⟨hrun, hlt, rfl⟩
  · rw [State.cycle_of_halted hrun] at h
    cases h
    exact .inl ⟨hrun, rfl⟩

/-! ### Stored bytes are fetched -/

theorem regOfNat_val (k : Reg) : regOfNat k.val = k := Fin.ext (Nat.mod_eq_of_lt k.isLt)

/-- A block store inside the address space leaves `V[0] .. V[X]` at `I .. I+X`, and keeps the parameters. -/
theorem exec_stBlock_bytes {x : Reg} (hle : s.i.toNat + x.val ≤ 0xFFF) : ∃ t, exec (.stBlock x) s = .next t ∧
    t.cfg = s.cfg ∧ ∀ k : Reg, k ≤ x → t.byteAt (s.i.toNat + k.val) = s.readV k := by
  rcases State.storeRegs_spec s.advance (x.val + 1) with ⟨-, m, hm, -, hread⟩ | ⟨hlt, -⟩
  · refine ⟨{ s.advance with mem := m }, congrArg s.finish hm, rfl, fun k hk => (hread _).trans ?_⟩
    have hk' : k.val ≤ x.val := hk
    rw [State.advance_i, if_pos (by omega), Nat.add_sub_cancel_left, regOfNat_val, State.advance_readV]
  · rw [State.advance_i] at hlt
    omega

/-- Settles O38: the two stored registers are the bytes the cycle fetches. -/
theorem storesAreSeenByTheNextFetch : Obligations.StoresAreSeenByTheNextFetch := by
  intro s x k k' i hle _ hkx hk' hdec
  obtain ⟨t, ht, hcfg, hbytes⟩ := exec_stBlock_bytes hle
  refine ⟨t, ht, fun t' hpc hmem hout hrun => ?_⟩
  have hlt : k.val < x.val := hkx
  have hhi : t'.byteAt t'.pc.toNat = s.readV k := by
    rw [hpc, hmem, hbytes k hkx.le]
  have hlo : t'.byteAt (t'.pc.toNat + 1) = s.readV k' := by
    rw [hpc, hmem, Nat.add_assoc, ← hk', hbytes k' (Fin.le_def.2 (by omega))]
  rw [State.cycle_of_fetch hrun (State.fetch_of_le (by omega)), hhi, hlo, hout.1, hcfg, hdec]
  rfl

end Sys2Proof.Machine
end

section
/-! PROOFS. What an instruction may do to the fields of the invariant (10_state.md R20, R27, R38; 20_memory.md
R50), and that every step keeps the invariant. `exec_control` says once where an instruction sends `pc`, what
it does to the stack slots, and which fault it may raise. -/

namespace Sys2Proof.Machine

variable {i : Instr} {s t : State}

/-! ### Control: `pc`, the stack slots and the fault -/

/-- Where an instruction that raises no fault may send `pc`. -/
inductive PcTarget (s : State) : Word → Prop where
  /-- back to itself (R175) -/
  | stay : PcTarget s s.pc
  /-- to the next instruction (R93) -/
  | next : PcTarget s (s.pc + 2)
  /-- past the next instruction (R108) -/
  | skip : PcTarget s (s.pc + 2 + 2)
  /-- to an address operand (R101, R102) -/
  | jump (nnn : Addr12) : PcTarget s (addrOperand nnn)
  /-- to an address operand plus V0 (R107) -/
  | offset (nnn : Addr12) : PcTarget s (offsetTarget (s.readV 0) nnn)
  /-- to a return address (R100) -/
  | ret (j : Fin 16) : PcTarget s (s.stack.get j)

/-- What an instruction may do to `pc`, the stack slots and the fault. -/
inductive Control (s : State) : State → Prop where
  /-- a cause of R201 was raised (R202, R203) -/
  | fault (c : Cause) (hc : c ≠ .none) : Control s (s.enterFault c)
  /-- `pc` moves, the stack slots and the fault stay -/
  | goes {t : State} (hpc : PcTarget s t.pc) (hstack : t.stack = s.stack)
      (hfault : Part.fault.Same s t) : Control s t
  /-- CALL pushes the address after itself (R102) -/
  | call (nnn : Addr12) (n : Nat) (hn : n < 16) (sp : Fin 17) :
      Control s { s with pc := addrOperand nnn, stack := s.stack.set n (s.pc + 2) hn, sp := sp }

theorem PcTarget.skipIf (c : Bool) : PcTarget s (s.advance.skipIf c).pc := by
  cases c
  · exact .next
  · exact .skip

theorem Control.skipIf (c : Bool) : Control s (s.advance.skipIf c) :=
  .goes (.skipIf c) (State.skipIf_stack ..) ⟨State.skipIf_fault .., State.skipIf_faultPc ..⟩

theorem Control.flagOp (x y : Reg) (f : Byte → Byte → Bool) (g : Byte → Byte → Byte) :
    Control s (s.advance.flagOp x y f g) := by
  obtain ⟨c, b, e⟩ := State.flagOp_eq_writeFlagThen s.advance x y f g
  exact e ▸ .goes .next rfl ⟨rfl, rfl⟩

theorem Control.writeIndexFlag (o : Bool) (w : Word) :
    Control s ((s.advance.writeIndexFlag o).writeI w) := by
  rw [State.writeIndexFlag_eq]
  exact .goes .next rfl ⟨rfl, rfl⟩

/-- What an instruction answers is one of its control effects. -/
theorem exec_control (h : exec i s = .next t) : Control s t := by
  cases i with
  | ret =>
    obtain ⟨n, hn, -, rfl⟩ | ⟨-, rfl⟩ := exec_ret_cases h
    · exact .goes (.ret _) rfl ⟨rfl, rfl⟩
    · exact .fault _ nofun
  | call nnn =>
    obtain ⟨hlt, rfl⟩ | ⟨-, rfl⟩ := exec_call_cases h
    · exact .call nnn _ hlt _
    · exact .fault _ nofun
  | jp nnn => cases h; exact .goes (.jump nnn) rfl ⟨rfl, rfl⟩
  | jpV0 nnn => cases h; exact .goes (.offset nnn) rfl ⟨rfl, rfl⟩
  | seImm | sneImm | seReg | sneReg => cases h; exact .skipIf _
  | skp x =>
    obtain ⟨-, rfl⟩ | ⟨-, rfl⟩ := exec_skp_cases h
    · exact .skipIf _
    · exact .fault _ nofun
  | sknp x =>
    obtain ⟨-, rfl⟩ | ⟨-, rfl⟩ := exec_sknp_cases h
    · exact .skipIf _
    · exact .fault _ nofun
  | sub | shr | subn | shl => cases h; exact .flagOp ..
  | addI => cases h; exact .writeIndexFlag ..
  | drw x y n =>
    obtain ⟨-, rfl⟩ | ⟨-, -, rfl⟩ := exec_drw_cases h
    · exact .goes .next rfl ⟨rfl, rfl⟩
    · exact .fault _ nofun
  | ldK x =>
    obtain ⟨k, -, rfl⟩ | ⟨-, rfl⟩ := exec_ldK_cases h
    · exact .goes .next rfl ⟨rfl, rfl⟩
    · exact .goes .stay rfl ⟨rfl, rfl⟩
  | ldB x =>
    obtain ⟨-, m, rfl, -⟩ | ⟨-, rfl⟩ := exec_ldB_cases h
    · exact .goes .next rfl ⟨rfl, rfl⟩
    · exact .fault _ nofun
  | stBlock x =>
    obtain ⟨-, m, rfl, -⟩ | ⟨-, rfl⟩ := exec_stBlock_cases h
    · exact .goes .next rfl ⟨rfl, rfl⟩
    · exact .fault _ nofun
  | ldBlock x =>
    obtain ⟨-, w, rfl, -⟩ | ⟨-, rfl⟩ := exec_ldBlock_cases h
    · exact .goes .next rfl ⟨rfl, rfl⟩
    · exact .fault _ nofun
  | cls | ldImm | addImm | ldReg | orReg | andReg | xorReg | addReg | rnd | ldI | ldF | ldVxDt | ldDt | ldSt
  | unknown0 | unknown8 | unknownE | unknownF => cases h; exact .goes .next rfl ⟨rfl, rfl⟩

theorem addrOperand_toNat_le (nnn : Addr12) : (addrOperand nnn).toNat ≤ 0xFFF := by
  unfold addrOperand
  bv_omega

/-- JP V0's largest target (R107). -/
theorem offsetTarget_toNat_le (v0 : Byte) (nnn : Addr12) : (offsetTarget v0 nnn).toNat ≤ 0x10FE := by
  unfold offsetTarget byteOperand addrOperand
  bv_omega

/-- An instruction fetched inside the address space sends `pc` no further than JP V0 can. -/
theorem PcTarget.toNat_le {w : Word} (hw : PcTarget s w) (hs : s.pcOk) (hpc : s.pc.toNat ≤ 0xFFE) :
    w.toNat ≤ 0x10FE := by
  obtain ⟨-, hstack⟩ := hs
  cases hw with
  | stay => omega
  | next => bv_omega
  | skip => bv_omega
  | jump nnn => have := addrOperand_toNat_le nnn; omega
  | offset nnn => exact offsetTarget_toNat_le (s.readV 0) nnn
  | ret j => have := hstack j; omega

/-- Pushing a word within the bound keeps every slot within it. -/
theorem stack_set_toNat_le {stack : Vector Word 16} {w : Word} {n b : Nat} (hn : n < 16)
    (hs : ∀ j, (stack.get j).toNat ≤ b) (hw : w.toNat ≤ b) (j : Fin 16) :
    ((stack.set n w hn).get j).toNat ≤ b := by
  change ((stack.set n w hn)[j.val]).toNat ≤ b
  rw [Vector.getElem_set]
  split
  · exact hw
  · exact hs j

theorem Control.pcOk (hc : Control s t) (hs : s.pcOk) (hpc : s.pc.toNat ≤ 0xFFE) : t.pcOk := by
  have hslots : ∀ j, (s.stack.get j).toNat ≤ 0x1000 := hs.2
  cases hc with
  | fault c => exact hs
  | goes htarget hstack => exact ⟨htarget.toNat_le hs hpc, hstack ▸ hslots⟩
  | call nnn n hn sp =>
    exact ⟨(PcTarget.jump nnn).toNat_le hs hpc, stack_set_toNat_le hn hslots (by bv_omega)⟩

theorem State.faultOk_enterFault {c : Cause} (hc : c ≠ .none) : (s.enterFault c).faultOk :=
  ⟨fun h => absurd h hc, fun _ => rfl⟩

theorem Control.faultOk (hc : Control s t) (hs : s.faultOk) (hrun : s.fault = .none) : t.faultOk := by
  have hzero : s.faultPc = 0 := hs.1 hrun
  cases hc with
  | fault c hc => exact State.faultOk_enterFault hc
  | goes _ _ hfault =>
    obtain ⟨hf, hp⟩ := hfault
    exact ⟨fun _ => hp.trans hzero, fun h => absurd (hf.trans hrun) h⟩
  | call => exact ⟨fun _ => hzero, fun h => absurd hrun h⟩

/-! ### Memory and `ROMBUF` -/

theorem exec_romBuf_eq (h : exec i s = .next t) : t.romBuf = s.romBuf :=
  (noInstructionWritesKeypadOrRomBuffer i s t h).2.1

theorem exec_keeps_memoryOk (hs : s.memoryOk) (h : exec i s = .next t) : t.memoryOk := by
  by_cases hLdB : ∃ x, i = .ldB x
  · obtain ⟨x, rfl⟩ := hLdB
    obtain ⟨-, m, rfl, hwf⟩ | ⟨-, rfl⟩ := exec_ldB_cases h
    · exact hwf hs
    · exact hs
  by_cases hStBlock : ∃ x, i = .stBlock x
  · obtain ⟨x, rfl⟩ := hStBlock
    obtain ⟨-, m, rfl, hwf⟩ | ⟨-, rfl⟩ := exec_stBlock_cases h
    · exact hwf hs
    · exact hs
  unfold State.memoryOk
  rw [exec_cfg_eq h, (exec_effect h).mem_eq (not_exists.1 hLdB) (not_exists.1 hStBlock)]
  exact hs

theorem exec_keeps_romOk (hs : s.romOk) (h : exec i s = .next t) : t.romOk := by
  unfold State.romOk
  rw [exec_cfg_eq h, exec_romBuf_eq h]
  exact hs

/-- An instruction a running engine fetched keeps the invariant. -/
theorem exec_keeps_inv (hs : s.Inv) (hrun : s.fault = .none) (hpc : s.pc.toNat ≤ 0xFFE)
    (h : exec i s = .next t) : t.Inv := by
  obtain ⟨hmem, hrom, hfault, hpcOk⟩ := hs
  have hc := exec_control h
  exact ⟨exec_keeps_memoryOk hmem h, exec_keeps_romOk hrom h, hc.faultOk hfault hrun, hc.pcOk hpcOk hpc⟩

/-! ### The cycle -/

theorem State.cycle_keeps_inv (hs : s.Inv) (h : s.cycle = .next t) : t.Inv := by
  obtain ⟨-, rfl⟩ | ⟨-, -, rfl⟩ | ⟨hrun, hpc, i, -, he⟩ := State.cycle_cases h
  · exact hs
  · obtain ⟨hmem, hrom, -, hpcOk⟩ := hs
    exact ⟨hmem, hrom, State.faultOk_enterFault nofun, hpcOk⟩
  · exact exec_keeps_inv hs hrun (by omega) he

/-! ### The timer and the host -/

/-- The largest ROM still ends inside the address space (R232). -/
theorem progBase_add_romMax_le (r : RomMax) : progBase + r.toNat ≤ memSize := by
  cases r <;> decide

theorem State.load_keeps_inv (hs : s.Inv) (bytes : List Byte) : (s.load bytes).1.Inv := by
  unfold State.load
  split
  next => exact hs
  next hle =>
    obtain ⟨hmem, -, hfault, hpcOk⟩ := hs
    have hmax := progBase_add_romMax_le s.cfg.romMax
    exact ⟨Memory.wf_writeBytes hmem (by omega), Nat.not_lt.1 hle, hfault, hpcOk⟩

theorem State.pcOk_resetOp (s : State) : s.resetOp.pcOk := by
  refine ⟨?_, fun j => ?_⟩
  · change (0x200 : Word).toNat ≤ 0x10FE
    decide
  · change ((Vector.replicate 16 (0 : Word))[j.val]).toNat ≤ 0x1000
    rw [Vector.getElem_replicate]
    decide

theorem State.resetOp_inv (hrom : s.romOk) : s.resetOp.Inv := by
  have hmax := progBase_add_romMax_le s.cfg.romMax
  unfold State.romOk at hrom
  exact ⟨Memory.wf_writeBytes (Memory.wf_nil _) (by omega), hrom,
    ⟨fun _ => rfl, fun h => absurd rfl h⟩, State.pcOk_resetOp s⟩

theorem State.perform_keeps_inv (hs : s.Inv) (op : AgentOp) : (s.perform op).1.Inv := by
  cases op with
  | load bytes => exact State.load_keeps_inv hs bytes
  | reset =>
    obtain ⟨-, hrom, -, -⟩ := hs
    exact State.resetOp_inv hrom
  | tick | key | present | status => exact hs

/-! ### The step -/

/-- The invariant does not speak of the pending turns. -/
theorem State.Inv.withSchedule (hs : s.Inv) (rest : List Turn) :
    State.Inv { s with schedule := rest } := hs

/-- A step that answers a next state is a cycle, pending or not, or a pending operation (R216). -/
theorem step_cases (h : step s = .next t) :
    (s.schedule = [] ∧ s.cycle = .next t) ∨
    (∃ rest, s.schedule = .cycle :: rest ∧ State.cycle { s with schedule := rest } = .next t) ∨
    ∃ op rest, s.schedule = .agent op :: rest ∧ t = (State.perform { s with schedule := rest } op).1 := by
  unfold step State.takeTurn at h
  split at h
  next hs => exact .inl ⟨hs, h⟩
  next rest hs => exact .inr (.inl ⟨rest, hs, h⟩)
  next op rest hs => cases h; exact .inr (.inr ⟨op, rest, hs, rfl⟩)

/-- Settles O59: a cycle keeps the invariant by `exec_control` and the frames of memory and `ROMBUF`, and so
does each operation of the timer and the host. -/
theorem everyStepKeepsTheInvariant : Obligations.EveryStepKeepsTheInvariant := by
  intro s t hs h
  obtain ⟨-, hc⟩ | ⟨rest, -, hc⟩ | ⟨op, rest, -, rfl⟩ := step_cases h
  · exact State.cycle_keeps_inv hs hc
  · exact State.cycle_keeps_inv (hs.withSchedule rest) hc
  · exact State.perform_keeps_inv (hs.withSchedule rest) op

end Sys2Proof.Machine
end

section
/-! PROOFS. Decoding and encoding (30_encoding.md R73 to R79). Families 0x0 and 0xE share one dispatch, over
two low bytes (R75, R79): `SecondLevel.select` states it once, its lemmas say what each key gives, and
`decode0_eq_select` and `decodeE_eq_select` tie both families to it. -/

namespace Sys2Proof

variable {k e : DecodeKey} {op : Word} {i : Instr}

/-! ### The second level of families 0x0 and 0xE -/

/-- What family 0x0 or 0xE makes of one opcode: the low bytes of its two instructions and their low
nibbles, the instructions, the unknown opcode, and the ambiguity under `Refuse`. -/
structure SecondLevel where
  byte1 : Byte
  byte2 : Byte
  nibble1 : Nibble
  nibble2 : Nibble
  instr1 : Instr
  instr2 : Instr
  unknown : Instr
  ambiguity : Ambiguity
  nibble1_eq : byte1.setWidth 4 = nibble1
  nibble2_eq : byte2.setWidth 4 = nibble2
  nibble_ne : nibble1 ≠ nibble2

namespace SecondLevel

/-- Family 0x0: CLS and RET. -/
def family0 (op : Word) : SecondLevel where
  byte1 := 0xE0
  byte2 := 0xEE
  nibble1 := 0x0
  nibble2 := 0xE
  instr1 := .cls
  instr2 := .ret
  unknown := .unknown0 (fieldNNN op)
  ambiguity := .family0
  nibble1_eq := by decide
  nibble2_eq := by decide
  nibble_ne := by decide

/-- Family 0xE: SKP and SKNP. -/
def familyE (op : Word) : SecondLevel where
  byte1 := 0x9E
  byte2 := 0xA1
  nibble1 := 0xE
  nibble2 := 0x1
  instr1 := .skp (fieldX op)
  instr2 := .sknp (fieldX op)
  unknown := .unknownE (fieldNNN op)
  ambiguity := .familyE
  nibble1_eq := by decide
  nibble2_eq := by decide
  nibble_ne := by decide

variable {L : SecondLevel}

theorem fieldN_eq_nibble1 (h : fieldKK op = L.byte1) : fieldN op = L.nibble1 := by
  rw [fieldN_eq_fieldKK, h, L.nibble1_eq]

theorem fieldN_eq_nibble2 (h : fieldKK op = L.byte2) : fieldN op = L.nibble2 := by
  rw [fieldN_eq_fieldKK, h, L.nibble2_eq]

variable (L)

/-- Dispatch on the low nibble. -/
def byNibble (op : Word) : Instr :=
  if fieldN op = L.nibble1 then L.instr1
  else if fieldN op = L.nibble2 then L.instr2
  else L.unknown

/-- Dispatch on the low byte. -/
def byByte (op : Word) : Instr :=
  if fieldKK op = L.byte1 then L.instr1
  else if fieldKK op = L.byte2 then L.instr2
  else L.unknown

/-- The ambiguous set: the low nibble of an instruction under another low byte. -/
def ambiguous (op : Word) : Bool :=
  (fieldN op == L.nibble1 && fieldKK op != L.byte1) ||
    (fieldN op == L.nibble2 && fieldKK op != L.byte2)

/-- The dispatch under each key. -/
def select (key : DecodeKey) (op : Word) : Except Ambiguity Instr :=
  match key with
  | .lowNibble => .ok (L.byNibble op)
  | .lowByte => .ok (L.byByte op)
  | .refuse => if L.ambiguous op then .error L.ambiguity else .ok (L.byByte op)

/-- The opcode selects neither instruction; under `Refuse` its low nibble may not either. -/
def Unknown (key : DecodeKey) (op : Word) : Prop :=
  match key with
  | .lowByte => fieldKK op ≠ L.byte1 ∧ fieldKK op ≠ L.byte2
  | .lowNibble | .refuse => fieldN op ≠ L.nibble1 ∧ fieldN op ≠ L.nibble2

theorem ambiguous_iff : L.ambiguous op = true ↔
    fieldN op = L.nibble1 ∧ fieldKK op ≠ L.byte1 ∨
      fieldN op = L.nibble2 ∧ fieldKK op ≠ L.byte2 := by
  simp [ambiguous]

theorem not_ambiguous_of_unknown_nibble (h : L.Unknown .lowNibble op) : ¬ L.ambiguous op := by
  obtain ⟨h1, h2⟩ := h
  rw [ambiguous_iff]
  rintro (⟨hn, -⟩ | ⟨hn, -⟩)
  · exact h1 hn
  · exact h2 hn

/-- Outside the ambiguous set the low byte is an instruction's as soon as the low nibble is. -/
theorem byByte_eq_byNibble (h : ¬ L.ambiguous op) : L.byByte op = L.byNibble op := by
  rw [ambiguous_iff, not_or, not_and_not_right, not_and_not_right] at h
  obtain ⟨h1, h2⟩ := h
  have e1 : fieldN op = L.nibble1 ↔ fieldKK op = L.byte1 := ⟨h1, fieldN_eq_nibble1⟩
  have e2 : fieldN op = L.nibble2 ↔ fieldKK op = L.byte2 := ⟨h2, fieldN_eq_nibble2⟩
  simp only [byByte, byNibble, e1, e2]

/-- Outside the ambiguous set every key dispatches alike (R79). -/
theorem select_of_not_ambiguous (h : ¬ L.ambiguous op) (key : DecodeKey) :
    L.select key op = .ok (L.byNibble op) := by
  cases key with
  | lowNibble => rfl
  | lowByte => rw [select, L.byByte_eq_byNibble h]
  | refuse => rw [select, if_neg h, L.byByte_eq_byNibble h]

theorem byNibble_of_unknown (h : L.Unknown .lowNibble op) : L.byNibble op = L.unknown := by
  obtain ⟨h1, h2⟩ := h
  rw [byNibble, if_neg h1, if_neg h2]

theorem byByte_of_unknown (h : L.Unknown .lowByte op) : L.byByte op = L.unknown := by
  obtain ⟨h1, h2⟩ := h
  rw [byByte, if_neg h1, if_neg h2]

theorem select_of_unknown (h : L.Unknown k op) : L.select k op = .ok L.unknown := by
  cases k with
  | lowNibble => rw [select, L.byNibble_of_unknown h]
  | lowByte => rw [select, L.byByte_of_unknown h]
  | refuse =>
    rw [L.select_of_not_ambiguous (L.not_ambiguous_of_unknown_nibble h), L.byNibble_of_unknown h]

theorem byNibble_cases (op : Word) : L.byNibble op = L.instr1 ∨ L.byNibble op = L.instr2 ∨
    L.byNibble op = L.unknown ∧ L.Unknown .lowNibble op := by
  unfold byNibble
  split_ifs with h1 h2
  · exact .inl rfl
  · exact .inr (.inl rfl)
  · exact .inr (.inr ⟨rfl, h1, h2⟩)

theorem byByte_cases (op : Word) : L.byByte op = L.instr1 ∨ L.byByte op = L.instr2 ∨
    L.byByte op = L.unknown ∧ L.Unknown .lowByte op := by
  unfold byByte
  split_ifs with h1 h2
  · exact .inl rfl
  · exact .inr (.inl rfl)
  · exact .inr (.inr ⟨rfl, h1, h2⟩)

/-- What a dispatch can answer. -/
theorem select_eq_ok (h : L.select k op = .ok i) :
    i = L.instr1 ∨ i = L.instr2 ∨ i = L.unknown ∧ L.Unknown k op := by
  cases k with
  | lowNibble => cases h; exact L.byNibble_cases op
  | lowByte => cases h; exact L.byByte_cases op
  | refuse =>
    by_cases ha : L.ambiguous op
    · rw [select, if_pos ha] at h
      cases h
    · rw [L.select_of_not_ambiguous ha] at h
      cases h
      exact L.byNibble_cases op

/-- R79's points: the answers of the three keys to an ambiguous opcode whose low nibble selects `i`. -/
def SelectsAmbiguously (op : Word) (i : Instr) : Prop :=
  L.select .lowNibble op = .ok i ∧ L.select .lowByte op = .ok L.unknown ∧
    L.select .refuse op = .error L.ambiguity

theorem selectsAmbiguously_first (hn : fieldN op = L.nibble1) (hk : fieldKK op ≠ L.byte1) :
    L.SelectsAmbiguously op L.instr1 := by
  have hk2 : fieldKK op ≠ L.byte2 := fun hb => L.nibble_ne (hn.symm.trans (fieldN_eq_nibble2 hb))
  have ha : L.ambiguous op := L.ambiguous_iff.2 (.inl ⟨hn, hk⟩)
  refine ⟨?_, ?_, ?_⟩
  · rw [select, byNibble, if_pos hn]
  · rw [select, L.byByte_of_unknown ⟨hk, hk2⟩]
  · rw [select, if_pos ha]

theorem selectsAmbiguously_second (hn : fieldN op = L.nibble2) (hk : fieldKK op ≠ L.byte2) :
    L.SelectsAmbiguously op L.instr2 := by
  have hk1 : fieldKK op ≠ L.byte1 := fun hb => L.nibble_ne ((fieldN_eq_nibble1 hb).symm.trans hn)
  have hn1 : fieldN op ≠ L.nibble1 := fun h1 => L.nibble_ne (h1.symm.trans hn)
  have ha : L.ambiguous op := L.ambiguous_iff.2 (.inr ⟨hn, hk⟩)
  refine ⟨?_, ?_, ?_⟩
  · rw [select, byNibble, if_neg hn1, if_pos hn]
  · rw [select, L.byByte_of_unknown ⟨hk1, hk⟩]
  · rw [select, if_pos ha]

end SecondLevel

open SecondLevel (family0 familyE)

theorem decode0_eq_select (key : DecodeKey) (op : Word) : decode0 key op = (family0 op).select key op := by
  cases key <;> rfl

theorem decodeE_eq_select (key : DecodeKey) (op : Word) : decodeE key op = (familyE op).select key op := by
  cases key <;> rfl

theorem isUnknown0_iff (key : DecodeKey) (op : Word) :
    isUnknown0 key (fieldNNN op) = true ↔ (family0 op).Unknown key op := by
  cases key <;>
    simp [isUnknown0, SecondLevel.Unknown, family0, fieldNNN_setWidth_four, fieldNNN_setWidth_eight]

theorem isUnknownE_iff (key : DecodeKey) (op : Word) :
    isUnknownE key (fieldNNN op) = true ↔ (familyE op).Unknown key op := by
  cases key <;>
    simp [isUnknownE, SecondLevel.Unknown, familyE, fieldNNN_setWidth_four, fieldNNN_setWidth_eight]

/-! ### The first level, and families 0x8 and 0xF -/

theorem decode_family0 (h : fieldF op = 0x0) : decode k e op = (family0 op).select k op := by
  simp [decode, h, decode0_eq_select]

theorem decode_familyE (h : fieldF op = 0xE) : decode k e op = (familyE op).select e op := by
  simp [decode, h, decodeE_eq_select]

theorem decode_family8 (h : fieldF op = 0x8) : decode k e op = .ok (decode8 op) := by
  simp [decode, h]

theorem decode_familyF (h : fieldF op = 0xF) : decode k e op = .ok (decodeF op) := by
  simp [decode, h]

/-- Only families 0x0 and 0xE read a second-level key. -/
theorem decode_eq_of_family_ne (h0 : fieldF op ≠ 0x0) (hE : fieldF op ≠ 0xE) (k k' e e' : DecodeKey) :
    decode k e op = decode k' e' op := by
  unfold decode
  split
  case h_1 hf => exact absurd (BitVec.eq_of_toNat_eq hf) h0
  case h_15 hf => exact absurd (BitVec.eq_of_toNat_eq hf) hE
  all_goals rfl

theorem decode8_of_isUnknown8 (h : isUnknown8 (fieldNNN op) = true) :
    decode8 op = .unknown8 (fieldNNN op) := by
  rw [isUnknown8, fieldNNN_setWidth_four, decide_eq_true_eq] at h
  unfold decode8
  split
  case h_10 => rfl
  all_goals simp_all

theorem decodeF_of_isUnknownF (h : isUnknownF (fieldNNN op) = true) :
    decodeF op = .unknownF (fieldNNN op) := by
  rw [isUnknownF, fieldNNN_setWidth_eight, decide_eq_true_eq] at h
  unfold decodeF
  split
  case h_10 => rfl
  all_goals simp_all

theorem decode8_wf (k e : DecodeKey) (op : Word) : (decode8 op).wf k e = true := by
  unfold decode8
  split
  case h_10 =>
    have hlt := (fieldN op).isLt
    simp only [Instr.wf, isUnknown8, fieldNNN_setWidth_four, decide_eq_true_eq, List.mem_cons,
      List.not_mem_nil, imp_false] at *
    omega
  all_goals rfl

theorem decodeF_wf (k e : DecodeKey) (op : Word) : (decodeF op).wf k e = true := by
  unfold decodeF
  split
  case h_10 => simp_all [Instr.wf, isUnknownF, fieldNNN_setWidth_eight]
  all_goals rfl

theorem decode0_wf (h : decode0 k op = .ok i) : i.wf k e = true := by
  rw [decode0_eq_select] at h
  obtain rfl | rfl | ⟨rfl, hu⟩ := (family0 op).select_eq_ok h
  · rfl
  · rfl
  · exact (isUnknown0_iff k op).2 hu

theorem decodeE_wf (h : decodeE e op = .ok i) : i.wf k e = true := by
  rw [decodeE_eq_select] at h
  obtain rfl | rfl | ⟨rfl, hu⟩ := (familyE op).select_eq_ok h
  · rfl
  · rfl
  · exact (isUnknownE_iff e op).2 hu

theorem decode_wf (h : decode k e op = .ok i) : i.wf k e = true := by
  unfold decode at h
  split at h
  case h_1 => exact decode0_wf h
  case h_9 => cases h; exact decode8_wf k e op
  case h_15 => exact decodeE_wf h
  case h_16 => cases h; exact decodeF_wf k e op
  all_goals cases h; rfl

/-! ### Encoded instructions -/

theorem decode_encode_unknown0 {rest : Addr12} (h : isUnknown0 k rest = true) :
    decode k e (encodeA 0x0 rest) = .ok (.unknown0 rest) := by
  have hu : (family0 (encodeA 0x0 rest)).Unknown k (encodeA 0x0 rest) := by
    rwa [← isUnknown0_iff, fieldNNN_encodeA]
  rw [decode_family0 (fieldF_encodeA ..), SecondLevel.select_of_unknown _ hu, family0, fieldNNN_encodeA]

theorem decode_encode_unknownE {rest : Addr12} (h : isUnknownE e rest = true) :
    decode k e (encodeA 0xE rest) = .ok (.unknownE rest) := by
  have hu : (familyE (encodeA 0xE rest)).Unknown e (encodeA 0xE rest) := by
    rwa [← isUnknownE_iff, fieldNNN_encodeA]
  rw [decode_familyE (fieldF_encodeA ..), SecondLevel.select_of_unknown _ hu, familyE, fieldNNN_encodeA]

theorem decode_encode_unknown8 {rest : Addr12} (h : isUnknown8 rest = true) :
    decode k e (encodeA 0x8 rest) = .ok (.unknown8 rest) := by
  rw [decode_family8 (fieldF_encodeA ..), decode8_of_isUnknown8 (by rwa [fieldNNN_encodeA]),
    fieldNNN_encodeA]

theorem decode_encode_unknownF {rest : Addr12} (h : isUnknownF rest = true) :
    decode k e (encodeA 0xF rest) = .ok (.unknownF rest) := by
  rw [decode_familyF (fieldF_encodeA ..), decodeF_of_isUnknownF (by rwa [fieldNNN_encodeA]),
    fieldNNN_encodeA]

/-- The canonical SKP and SKNP lie outside the ambiguous set, so the key does not matter. -/
theorem decode_encodeXK_familyE {kk : Byte} {x : Reg} (hkk : kk = 0x9E ∨ kk = 0xA1) :
    decode k e (encodeXK 0xE x kk) = .ok ((familyE (encodeXK 0xE x kk)).byNibble (encodeXK 0xE x kk)) := by
  rw [decode_familyE (fieldF_encodeXK ..), SecondLevel.select_of_not_ambiguous]
  obtain rfl | rfl := hkk <;> simp [SecondLevel.ambiguous_iff, familyE]

/-- Settles O9, format by format: an instruction's fields are read back from its encoding, and a well-formed
unknown opcode selects no instruction. -/
theorem decodeOfEncodeIsTheInstruction : Obligations.DecodeOfEncodeIsTheInstruction := by
  intro k e i hwf
  cases i with
  | unknown0 rest => exact decode_encode_unknown0 hwf
  | unknown8 rest => exact decode_encode_unknown8 hwf
  | unknownE rest => exact decode_encode_unknownE hwf
  | unknownF rest => exact decode_encode_unknownF hwf
  | cls | ret => cases k <;> rfl
  | skp x => rw [encode, decode_encodeXK_familyE (.inl rfl)]; simp [SecondLevel.byNibble, familyE]
  | sknp x => rw [encode, decode_encodeXK_familyE (.inr rfl)]; simp [SecondLevel.byNibble, familyE]
  | jp | call | ldI | jpV0 => simp [encode, decode]
  | seImm | sneImm | ldImm | addImm | rnd => simp [encode, decode]
  | seReg | sneReg | drw => simp [encode, decode]
  | ldReg | orReg | andReg | xorReg | addReg | sub | shr | subn | shl =>
    rw [encode, decode_family8 (fieldF_encodeXYN ..)]
    simp [decode8]
  | ldVxDt | ldK | ldDt | ldSt | addI | ldF | ldB | stBlock | ldBlock =>
    rw [encode, decode_familyF (fieldF_encodeXK ..)]
    simp [decodeF]

/-- Settles O10: what decodes is well formed, family by family, and O9 reads it back. -/
theorem decodedInstructionsAreWellFormed : Obligations.DecodedInstructionsAreWellFormed := by
  intro k e op i h
  have hwf : i.wf k e = true := decode_wf h
  exact ⟨hwf, decodeOfEncodeIsTheInstruction k e i hwf⟩

/-- Settles O8: the first clause family by family, R79's four points by the two sides of `SecondLevel`. -/
theorem keysDifferOnlyOnTheAmbiguousSet : Obligations.KeysDifferOnlyOnTheAmbiguousSet := by
  refine ⟨fun op k k' e e' h0 hE => ?_, fun op e hf hn hk => ?_, fun op e hf hn hk => ?_,
    fun op k hf hn hk => ?_, fun op k hf hn hk => ?_⟩
  · by_cases hf0 : fieldF op = 0x0
    · have ha : ¬ (family0 op).ambiguous op := fun ha => h0 ⟨hf0, (family0 op).ambiguous_iff.1 ha⟩
      simp only [decode_family0 hf0, SecondLevel.select_of_not_ambiguous _ ha]
    by_cases hfE : fieldF op = 0xE
    · have ha : ¬ (familyE op).ambiguous op := fun ha => hE ⟨hfE, (familyE op).ambiguous_iff.1 ha⟩
      simp only [decode_familyE hfE, SecondLevel.select_of_not_ambiguous _ ha]
    exact decode_eq_of_family_ne hf0 hfE ..
  · simp only [decode_family0 hf]
    exact (family0 op).selectsAmbiguously_first hn hk
  · simp only [decode_family0 hf]
    exact (family0 op).selectsAmbiguously_second hn hk
  · simp only [decode_familyE hf]
    exact (familyE op).selectsAmbiguously_first hn hk
  · simp only [decode_familyE hf]
    exact (familyE op).selectsAmbiguously_second hn hk

/-- Settles O11, by running the decoder. -/
theorem canonicalWordsDecode : Obligations.CanonicalWordsDecode := by
  unfold Obligations.CanonicalWordsDecode
  decide

/-- Settles O12: families 0x5 and 0x9 do not read N, and the shifts' arms of family 0x8 do not read Y. -/
theorem unusedBitsAreIgnored : Obligations.UnusedBitsAreIgnored := by
  intro k e x y n
  refine ⟨?_, ?_, ?_, ?_⟩
  · simp [decode]
  · simp [decode]
  · rw [decode_family8 (fieldF_encodeXYN ..)]; simp [decode8]
  · rw [decode_family8 (fieldF_encodeXYN ..)]; simp [decode8]

end Sys2Proof
end

section
/-! PROOFS. The engine's cycle (40_cycle.md R90 to R97): whose turn a step is, what the cycle fetches and
runs, which opcodes `Refuse` refuses, and what an unknown opcode leaves as it was. The cycle's branches are
said above (`State.cycle_of_halted`, `State.cycle_of_fetch_error`, `State.cycle_of_fetch`). -/

namespace Sys2Proof

variable {op : Word}

/-! ### The decoder under `Refuse` and under the default keys -/

theorem SecondLevel.select_refuse_of_ambiguous (L : SecondLevel) (h : L.ambiguous op = true) :
    L.select .refuse op = .error L.ambiguity := if_pos h

theorem decode_refuse_family0 (e : DecodeKey) (hf : fieldF op = 0x0)
    (ha : fieldN op = 0x0 ∧ fieldKK op ≠ 0xE0 ∨ fieldN op = 0xE ∧ fieldKK op ≠ 0xEE) :
    decode .refuse e op = .error .family0 := by
  rw [decode_family0 hf]
  exact SecondLevel.select_refuse_of_ambiguous _ ((SecondLevel.family0 op).ambiguous_iff.2 ha)

theorem decode_refuse_familyE (k : DecodeKey) (hf : fieldF op = 0xE)
    (ha : fieldN op = 0xE ∧ fieldKK op ≠ 0x9E ∨ fieldN op = 0x1 ∧ fieldKK op ≠ 0xA1) :
    decode k .refuse op = .error .familyE := by
  rw [decode_familyE hf]
  exact SecondLevel.select_refuse_of_ambiguous _ ((SecondLevel.familyE op).ambiguous_iff.2 ha)

/-- Under the default keys every opcode has an instruction (R75, R97). -/
theorem decode_lowNibble_ok (op : Word) : ∃ i, decode .lowNibble .lowNibble op = .ok i := by
  unfold decode
  split <;> exact ⟨_, rfl⟩

end Sys2Proof

namespace Sys2Proof.Machine

variable {i : Instr} {s : State} {op : Word}

/-! ### The turn and the decoded instruction -/

theorem step_of_no_turn (h : s.schedule = []) : step s = s.cycle := by
  rw [step, State.takeTurn, h]

theorem step_of_cycle_turn {rest : List Turn} (h : s.schedule = .cycle :: rest) :
    step s = State.cycle { s with schedule := rest } := by
  rw [step, State.takeTurn, h]

theorem State.cycle_of_decode (hrun : s.fault = .none) (hf : s.fetch = .ok op)
    (hd : decode s.cfg.decodeKey0 s.cfg.decodeKeyE op = .ok i) : s.cycle = exec i s := by
  rw [State.cycle_of_fetch hrun hf, hd, runDecoded]

/-- Settles O5, by the cycle's halted branch and the branch that decodes. -/
theorem cycleHaltsOrPerformsOneInstruction : Obligations.CycleHaltsOrPerformsOneInstruction :=
  ⟨fun _ => State.cycle_of_halted, fun _ _ _ => State.cycle_of_decode⟩

/-- Settles O4: the turn chooses the cycle, and a pending cycle runs on the state without its turn, which
fetches and decodes as the state itself does. -/
theorem stepRunsDecodedInstruction : Obligations.StepRunsDecodedInstruction := by
  refine ⟨fun s => step_of_no_turn, fun s hs hhalt => ?_, fun s i hrun hpc hd =>
    ⟨fun hs => ?_, fun rest hs => ?_⟩⟩
  · rw [step_of_no_turn hs, State.cycle_of_halted hhalt]
  · rw [step_of_no_turn hs, State.cycle_of_decode hrun (State.fetch_of_le hpc) hd]
  · have hf : State.fetch { s with schedule := rest } =
        .ok (s.byteAt s.pc.toNat ++ s.byteAt (s.pc.toNat + 1)) := State.fetch_of_le hpc
    rw [step_of_cycle_turn hs]
    exact State.cycle_of_decode hrun hf hd

/-- Settles O6: past 0xFFE the cycle enters the fetch fault, and before it the opcode is the two bytes put
together. -/
theorem fetchIsBigEndianAndRangeChecked : Obligations.FetchIsBigEndianAndRangeChecked := by
  refine fun s => ⟨fun hpc hrun => ?_, fun hpc => ?_⟩
  · exact ⟨s.enterFault .fetchRange, State.cycle_of_fetch_error hrun (State.fetch_of_lt hpc), rfl⟩
  · exact ⟨_, State.fetch_of_le hpc, BitVec.extractLsb'_append_eq_left, BitVec.extractLsb'_append_eq_right⟩

/-! ### Refused opcodes -/

theorem State.finish_answers (s : State) (r : Except Cause State) : ∃ t, s.finish r = .next t := by
  obtain ⟨t, -, h⟩ | ⟨c, -, h⟩ := s.finish_cases r
  · exact ⟨t, h⟩
  · exact ⟨_, h⟩

/-- Every instruction answers a next state: those that may raise a cause by `State.finish_answers`, the
others the state their meaning names. -/
theorem exec_answers (i : Instr) (s : State) : ∃ t, exec i s = .next t := by
  cases i with
  | ret | call | drw | skp | sknp | ldB | stBlock | ldBlock => exact State.finish_answers s _
  | _ => exact ⟨_, rfl⟩

/-- Settles O7: `Refuse` decodes an ambiguous opcode to its family's refusal; under the default keys every
opcode decodes, and its instruction answers a next state. -/
theorem refuseRefusesTheAmbiguousSet : Obligations.RefuseRefusesTheAmbiguousSet := by
  refine fun s op hrun hf => ⟨fun hk hF ha => ?_, fun hk hF ha => ?_, fun hk0 hkE => ?_⟩
  · rw [State.cycle_of_fetch hrun hf, hk, decode_refuse_family0 _ hF ha, runDecoded]
  · rw [State.cycle_of_fetch hrun hf, hk, decode_refuse_familyE _ hF ha, runDecoded]
  · obtain ⟨i, hd⟩ := decode_lowNibble_ok op
    rw [State.cycle_of_fetch hrun hf, hk0, hkE, hd, runDecoded]
    exact exec_answers i s

/-! ### Unknown opcodes -/

/-- Every unknown opcode is a no-op that advances `pc` (R78). -/
theorem exec_unknown {rest : Addr12}
    (hi : i ∈ [Instr.unknown0 rest, .unknown8 rest, .unknownE rest, .unknownF rest]) (s : State) :
    exec i s = .next s.advance := by
  simp only [List.mem_cons, List.not_mem_nil, or_false] at hi
  obtain rfl | rfl | rfl | rfl := hi <;> rfl

/-- The advance of `pc` is in no part of the frame. -/
theorem State.advance_sameBut (s : State) : SameBut [] s s.advance := by
  intro p _
  cases p <;> simp [Part.Same]

/-- Settles O13: the next state is the advanced one, whose frame is everything but `pc`. -/
theorem unknownOpcodesOnlyAdvancePc : Obligations.UnknownOpcodesOnlyAdvancePc := fun s _ _ hi =>
  ⟨s.advance, exec_unknown hi s, rfl, s.advance_readV, s.advance_sameBut⟩

end Sys2Proof.Machine
end

section
/-! PROOFS. Control transfer (41_flow.md R100 to R107). RET and CALL are said once for each of their two
outcomes, `exec_ret_of_called` says that a RET on the stack a CALL left resumes after it, and a jump and a skip
change `pc` alone. -/

namespace Sys2Proof.Machine

variable {i : Instr} {s t : State}

/-! ### `pc` and the stack are what control transfer changes -/

theorem State.writePc_advance_sameBut (s : State) (w : Word) : SameBut [] s (s.advance.writePc w) := by
  intro p _
  cases p <;> simp [Part.Same]

theorem State.skipIf_advance_sameBut (s : State) (c : Bool) : SameBut [] s (s.advance.skipIf c) := by
  intro p _
  cases p <;> simp [Part.Same]

/-- The stack is the one part that a new `pc`, `STACK` and `SP` touch. -/
theorem State.sameBut_stack (s : State) (pc : Word) (stack : Vector Word 16) (sp : Fin 17) :
    SameBut [.stack] s { s with pc := pc, stack := stack, sp := sp } := by
  intro p hp
  cases p with
  | stack => exact absurd (List.mem_singleton.2 rfl) hp
  | memory => exact fun _ => rfl
  | timers | display | fault | outside => exact ⟨rfl, rfl⟩
  | index | keypad | rom | draws => rfl

/-! ### Targets -/

theorem addrOperand_toNat (nnn : Addr12) : (addrOperand nnn).toNat = nnn.toNat :=
  BitVec.toNat_setWidth_of_le (by decide)

theorem offsetTarget_toNat (v0 : Byte) (nnn : Addr12) :
    (offsetTarget v0 nnn).toNat = v0.toNat + nnn.toNat := by
  unfold offsetTarget byteOperand addrOperand
  bv_omega

/-! ### RET and CALL -/

/-- The state after a RET that pops slot `n` (R100). -/
def State.returned (s : State) (n : Fin 16) : State := { s with pc := s.stack.get n, sp := n.castSucc }

/-- The state after a CALL that pushes into slot `n` (R102). -/
def State.called (s : State) (nnn : Addr12) (n : Fin 16) : State :=
  { s with pc := addrOperand nnn, stack := s.stack.set n.val (s.pc + 2) n.isLt, sp := n.succ }

theorem exec_ret_of_succ {n : Fin 16} (h : s.sp = n.succ) : exec .ret s = .next (s.returned n) := by
  obtain ⟨t, ht⟩ := exec_answers .ret s
  obtain ⟨m, hm, hsp, rfl⟩ | ⟨h0, -⟩ := exec_ret_cases ht
  · obtain rfl : n = ⟨m, Nat.lt_of_succ_lt_succ hm⟩ := Fin.succ_inj.1 (h.symm.trans hsp)
    exact ht
  · exact absurd (h.symm.trans h0) (Fin.succ_ne_zero n)

theorem exec_ret_of_empty (h : s.sp = 0) : exec .ret s = .next (s.enterFault .stackUnderflow) := by
  obtain ⟨t, ht⟩ := exec_answers .ret s
  obtain ⟨m, hm, hsp, -⟩ | ⟨-, rfl⟩ := exec_ret_cases ht
  · exact absurd (h.symm.trans hsp) nofun
  · exact ht

theorem exec_call_of_lt (nnn : Addr12) (h : s.sp.val < 16) :
    exec (.call nnn) s = .next (s.called nnn ⟨s.sp.val, h⟩) := by
  obtain ⟨t, ht⟩ := exec_answers (.call nnn) s
  obtain ⟨_, rfl⟩ | ⟨h16, -⟩ := exec_call_cases ht
  · exact ht
  · omega

theorem exec_call_of_full (nnn : Addr12) (h : s.sp.val = 16) :
    exec (.call nnn) s = .next (s.enterFault .stackOverflow) := by
  obtain ⟨t, ht⟩ := exec_answers (.call nnn) s
  obtain ⟨hlt, -⟩ | ⟨-, rfl⟩ := exec_call_cases ht
  · omega
  · exact ht

theorem State.called_slot (s : State) (nnn : Addr12) (n j : Fin 16) :
    (s.called nnn n).stack.get j = if j.val = n.val then s.pc + 2 else s.stack.get j := by
  change (s.stack.set n.val (s.pc + 2) n.isLt)[j.val] = if j.val = n.val then s.pc + 2 else s.stack[j.val]
  rw [Vector.getElem_set]
  simp only [eq_comm (a := n.val)]

/-- On the stack pointer and slots a CALL left, in whatever state, RET resumes after the CALL with `SP` back
at the pushed slot. -/
theorem exec_ret_of_called (nnn : Addr12) {n : Fin 16} (hsp : t.sp = (s.called nnn n).sp)
    (hstack : t.stack = (s.called nnn n).stack) :
    exec .ret t = .next { t with pc := s.pc + 2, sp := n.castSucc } := by
  have hslot : t.stack.get n = s.pc + 2 := by rw [hstack, State.called_slot, if_pos rfl]
  rw [exec_ret_of_succ hsp, State.returned, hslot]

/-- Settles O28: the called state holds the return address in the slot RET pops. -/
theorem returnResumesAfterTheCall : Obligations.ReturnResumesAfterTheCall := fun _ nnn h =>
  ⟨_, exec_call_of_lt nnn h, fun _ hsp hstack => ⟨_, exec_ret_of_called nnn hsp hstack, rfl, rfl, hstack⟩⟩

/-- Settles O23, by RET's two outcomes. -/
theorem returnPopsOrUnderflows : Obligations.ReturnPopsOrUnderflows := by
  refine fun s => ⟨fun n h hsp => ?_, fun hsp => ⟨_, exec_ret_of_empty hsp, rfl⟩⟩
  exact ⟨s.returned ⟨n, h⟩, exec_ret_of_succ (Fin.ext hsp), rfl, rfl, fun hok => hok.2 _, rfl, fun _ => rfl,
    s.sameBut_stack _ _ _⟩

/-- Settles O25, by CALL's two outcomes and a RET on the state it leaves. -/
theorem callPushesOrOverflows : Obligations.CallPushesOrOverflows := by
  refine fun s nnn => ⟨fun h => ?_, fun hsp => ⟨_, exec_call_of_full nnn hsp, rfl⟩⟩
  refine ⟨_, exec_call_of_lt nnn h, rfl, ?_, fun j hj => ?_, addrOperand_toNat nnn, fun _ => rfl,
    s.sameBut_stack _ _ _, _, exec_ret_of_called nnn rfl rfl, rfl, fun hpc => ?_⟩
  · rw [State.called_slot, if_pos rfl]
  · rw [State.called_slot, if_neg hj]
  · refine State.fetch_of_lt ?_
    change 0xFFF < (s.pc + 2).toNat + 1
    rw [hpc]
    decide

/-! ### Jumps -/

/-- Settles O24: a jump writes `pc` alone, so a jump to its own address is the state again. -/
theorem jumpsSetPc : Obligations.JumpsSetPc := by
  refine fun s nnn =>
    ⟨⟨_, rfl, addrOperand_toNat nnn, s.advance_readV, s.writePc_advance_sameBut _, fun hself => ?_,
      fun hpc => State.fetch_of_lt (by omega)⟩,
    ⟨_, rfl, offsetTarget_toNat .., offsetTarget_toNat_le .., s.advance_readV, s.writePc_advance_sameBut _,
      fun hpc => State.fetch_of_lt (by omega)⟩⟩
  have hpc : addrOperand nnn = s.pc := BitVec.eq_of_toNat_eq ((addrOperand_toNat nnn).trans hself)
  rw [hpc]
  rfl

/-! ### Skips -/

/-- An instruction whose meaning is a skip adds 4 to `pc` when its condition holds and 2 otherwise, and
changes nothing else (R108). -/
theorem skip_answers {c : Bool} {d : Word} (hi : exec i s = .next (s.advance.skipIf c))
    (hd : d = if c then 4 else 2) :
    ∃ t, exec i s = .next t ∧ t.pc = s.pc + d ∧ RegsSame s t ∧ SameBut [] s t := by
  refine ⟨_, hi, ?_, fun q => ?_, s.skipIf_advance_sameBut c⟩
  · subst hd
    cases c
    · rfl
    · exact BitVec.add_assoc ..
  · rw [State.skipIf_readV, State.advance_readV]

/-- Settles O26: SE and SNE are skips on the comparison with the byte. -/
theorem byteSkipsSkipOneInstruction : Obligations.ByteSkipsSkipOneInstruction := fun _ _ _ =>
  ⟨skip_answers rfl (by simp), skip_answers rfl (by simp)⟩

/-- Settles O27: SE and SNE are skips on the comparison of the registers, and O12 ignores N. -/
theorem registerSkipsSkipOneInstruction : Obligations.RegisterSkipsSkipOneInstruction := fun _ x y =>
  ⟨skip_answers rfl (by simp), skip_answers rfl (by simp), fun k e n =>
    have ⟨hSe, hSne, _⟩ := unusedBitsAreIgnored k e x y n
    ⟨hSe, hSne⟩⟩

end Sys2Proof.Machine
end

section
/-! PROOFS. Register loads, arithmetic, logic, shifts and random (42_alu.md R119 to R132, with R170). An
instruction here writes one register (`writeV_answers`), or VF and then one register (`writeFlagThen_answers`),
to which both operand orders of R119 come down (`State.flagOp_eq`). -/

namespace Sys2Proof.Machine

variable {i : Instr} {s : State} {x y : Reg} {b : Byte}

/-! ### ALU results and flags as numbers -/

theorem addResult_toNat (a b : Byte) : (addResult a b).toNat = (a.toNat + b.toNat) % 256 :=
  BitVec.toNat_ofNat ..

theorem subResult_toNat (a b : Byte) : (subResult a b).toNat = (a.toNat + 256 - b.toNat) % 256 :=
  BitVec.toNat_ofNat ..

theorem shrResult_toNat (a : Byte) : (shrResult a).toNat = a.toNat / 2 := by
  rw [shrResult, BitVec.toNat_ushiftRight, Nat.shiftRight_eq_div_pow, pow_one]

theorem shlResult_toNat (a : Byte) : (shlResult a).toNat = 2 * a.toNat % 256 := by
  rw [shlResult, BitVec.toNat_shiftLeft, Nat.shiftLeft_eq, pow_one, mul_comm]

theorem flagByte_carryFlag (a b : Byte) :
    flagByte (carryFlag a b) = if 0xFF < a.toNat + b.toNat then 1 else 0 := by
  simp [flagByte, carryFlag]

theorem flagByte_noBorrowFlag (e : Bool) (a b : Byte) :
    flagByte (noBorrowFlag e a b) = if b.toNat < a.toNat ∨ a = b ∧ e = true then 1 else 0 := by
  simp [flagByte, noBorrowFlag]

theorem flagByte_toNat (c : Bool) : (flagByte c).toNat = c.toNat := by cases c <;> rfl

theorem shrFlag_toNat (a : Byte) : (shrFlag a).toNat = a.toNat % 2 := by
  rw [shrFlag, BitVec.getLsbD, Nat.toNat_testBit, pow_zero, Nat.div_one]

theorem shlFlag_toNat (a : Byte) : (shlFlag a).toNat = a.toNat / 128 := by
  rw [shlFlag, BitVec.getLsbD, Nat.toNat_testBit]
  omega

/-- A flag read again as SHR's operand is shifted out. -/
theorem shrResult_flagByte (c : Bool) : shrResult (flagByte c) = 0 := by cases c <;> rfl

/-! ### One register -/

/-- An instruction whose meaning is one register write changes that register and advances `pc`. -/
theorem writeV_answers (hi : exec i s = .next (s.advance.writeV x b)) :
    ∃ t, exec i s = .next t ∧ t.readV x = b ∧ OtherRegsSame x s t ∧ t.pc = s.pc + 2 ∧ SameBut [] s t := by
  refine ⟨_, hi, by simp, fun q hq => by simp [hq], rfl, fun p _ => ?_⟩
  cases p <;> simp [Part.Same]

/-- Settles O14: each of the three is a write of its value to `V[X]`. -/
theorem registerLoadsWriteOnlyVx : Obligations.RegisterLoadsWriteOnlyVx := by
  rintro s i x y kk value (⟨rfl, rfl⟩ | ⟨rfl, rfl⟩ | ⟨rfl, rfl⟩)
  · exact writeV_answers rfl
  · exact writeV_answers rfl
  · exact writeV_answers rfl

/-- Settles O15: the write of the wrapped sum. -/
theorem addImmediateWrapsWithoutFlag : Obligations.AddImmediateWrapsWithoutFlag := by
  intro s x kk
  obtain ⟨t, ht, hx, hrest⟩ := writeV_answers (i := .addImm x kk) (s := s) rfl
  exact ⟨t, ht, hx ▸ addResult_toNat .., hrest⟩

/-- Settles O16: the write of the word operation's result, bit by bit. -/
theorem logicIsBitwiseWithoutFlag : Obligations.LogicIsBitwiseWithoutFlag := by
  intro s x y
  refine ⟨?_, ?_, ?_⟩
  · obtain ⟨t, ht, hx, hrest⟩ := writeV_answers (i := .orReg x y) (s := s) rfl
    exact ⟨t, ht, fun j => hx ▸ BitVec.getLsbD_or, hrest⟩
  · obtain ⟨t, ht, hx, hrest⟩ := writeV_answers (i := .andReg x y) (s := s) rfl
    exact ⟨t, ht, fun j => hx ▸ BitVec.getLsbD_and, hrest⟩
  · obtain ⟨t, ht, hx, hrest⟩ := writeV_answers (i := .xorReg x y) (s := s) rfl
    exact ⟨t, ht, fun j => hx ▸ BitVec.getLsbD_xor, hrest⟩

/-- Settles O22: RND writes its masked draw and counts it; the count is the one part it touches. -/
theorem randomIsAMaskedFreshDraw : Obligations.RandomIsAMaskedFreshDraw := by
  intro s x kk
  refine ⟨_, rfl, fun j => ?_, rfl, fun q hq => ?_, rfl, fun p hp => ?_⟩
  · rw [State.readV_writeV, if_pos rfl, BitVec.getLsbD_and]
  · exact (State.readV_writeV _ x q _).trans (if_neg hq)
  · cases p with
    | draws => exact absurd (List.mem_singleton.2 rfl) hp
    | memory => exact fun _ => rfl
    | stack | timers | display | fault | outside => exact ⟨rfl, rfl⟩
    | index | keypad | rom => rfl

/-! ### VF and one register -/

/-- An instruction whose meaning writes a flag to VF and then a register changes those two and advances `pc`;
where the register is VF, the flag is lost (R119). -/
theorem writeFlagThen_answers {c : Bool} (hi : exec i s = .next (s.advance.writeFlagThen c x b)) :
    ∃ t, exec i s = .next t ∧ t.readV x = b ∧ (x ≠ vf → t.readV vf = flagByte c) ∧
      (∀ q, q ≠ x → q ≠ vf → t.readV q = s.readV q) ∧ t.pc = s.pc + 2 ∧ SameBut [] s t := by
  refine ⟨_, hi, ?_, fun hx => ?_, fun q hq hf => ?_, rfl, fun p _ => ?_⟩
  · rw [State.readV_writeFlagThen, if_pos rfl]
  · rw [State.readV_writeFlagThen, if_neg hx.symm, if_pos rfl]
  · rw [State.readV_writeFlagThen, if_neg hq, if_neg hf, State.advance_readV]
  · cases p <;> simp [Part.Same]

/-- Under either operand order a flag-writing instruction writes its flag and then its result, computed from
operands of which, under `Reread`, those that are VF hold the flag. -/
theorem State.flagOp_eq {f : Byte → Byte → Bool} {g : Byte → Byte → Byte} {a b c : Byte}
    (hc : c = flagByte (f (s.readV x) (s.readV y)))
    (ha : a = if s.cfg.vfOperandOrder = .reread ∧ x = vf then c else s.readV x)
    (hb : b = if s.cfg.vfOperandOrder = .reread ∧ y = vf then c else s.readV y) :
    s.flagOp x y f g = s.writeFlagThen (f (s.readV x) (s.readV y)) x (g a b) := by
  subst hc ha hb
  unfold State.flagOp
  cases s.cfg.vfOperandOrder
  · simp
  · simp [State.writeFlagThen]

/-- Settles O17: the sum and its carry are both taken from the operands as they were. -/
theorem addRegistersCarriesIntoVf : Obligations.AddRegistersCarriesIntoVf := by
  intro s x y
  obtain ⟨t, ht, hx, hflag, hrest⟩ := writeFlagThen_answers (i := .addReg x y) (s := s) rfl
  exact ⟨t, ht, hx ▸ addResult_toNat .., fun h => (hflag h).trans (flagByte_carryFlag ..), hrest⟩

/-- Settles O18: `f` is SUB's flag, and `a`, `b` are the operands its result is computed from. -/
theorem subtractSetsNoBorrow : Obligations.SubtractSetsNoBorrow := by
  intro s x y f a b hf ha hb
  have hflag := hf.trans (flagByte_noBorrowFlag s.cfg.subEqualFlag (s.readV x) (s.readV y)).symm
  obtain ⟨t, ht, hx, hvf, hrest⟩ := writeFlagThen_answers (i := .sub x y) (s := s)
    (congrArg Host.Outcome.next (State.flagOp_eq hflag ha hb))
  exact ⟨t, ht, hx ▸ subResult_toNat a b, fun h => (hvf h).trans hflag.symm, hrest⟩

/-- Settles O19: SUB's argument with the operands exchanged. -/
theorem reverseSubtractSetsNoBorrow : Obligations.ReverseSubtractSetsNoBorrow := by
  intro s x y f a b hf ha hb
  simp only [eq_comm (a := s.readV x)] at hf
  have hflag := hf.trans (flagByte_noBorrowFlag s.cfg.subEqualFlag (s.readV y) (s.readV x)).symm
  obtain ⟨t, ht, hx, hvf, hrest⟩ := writeFlagThen_answers (i := .subn x y) (s := s)
    (congrArg Host.Outcome.next (State.flagOp_eq hflag ha hb))
  exact ⟨t, ht, hx ▸ subResult_toNat b a, fun h => (hvf h).trans hflag.symm, hrest⟩

/-! ### Shifts -/

/-- An instruction whose meaning is a shift of `V[X]` writes the result for `V[X]`, or under `Reread` with VF
as the destination the result for the flag. -/
theorem shift_answers {f : Byte → Bool} {g : Byte → Byte}
    (hi : exec i s = .next (s.advance.flagOp x x (fun v _ => f v) (fun v _ => g v))) :
    ∃ t, exec i s = .next t ∧
      (x ≠ vf ∨ s.cfg.vfOperandOrder = .snapshot → t.readV x = g (s.readV x)) ∧
      (x = vf → s.cfg.vfOperandOrder = .reread → t.readV x = g (flagByte (f (s.readV x)))) ∧
      (x ≠ vf → t.readV vf = flagByte (f (s.readV x))) ∧
      (∀ q, q ≠ x → q ≠ vf → t.readV q = s.readV q) ∧ t.pc = s.pc + 2 ∧ SameBut [] s t := by
  obtain ⟨t, ht, hx, hrest⟩ := writeFlagThen_answers
    (hi.trans (congrArg Host.Outcome.next (State.flagOp_eq rfl rfl rfl)))
  refine ⟨t, ht, fun h => ?_, fun hvf ho => ?_, hrest⟩
  · have hold : ¬ (s.cfg.vfOperandOrder = .reread ∧ x = vf) := fun ⟨ho, hvf⟩ =>
      h.elim (· hvf) fun hs => nomatch hs.symm.trans ho
    exact hx.trans (congrArg g (if_neg hold))
  · exact hx.trans (congrArg g (if_pos ⟨ho, hvf⟩))

/-- Settles O20: SHR is a shift, and O12 ignores `Y`. -/
theorem shiftRightKeepsTheLostBit : Obligations.ShiftRightKeepsTheLostBit := by
  intro s x
  obtain ⟨t, ht, hold, hreread, hflag, hregs, hpc, hsame⟩ := shift_answers (i := .shr x) (s := s) rfl
  refine ⟨t, ht, fun h => ?_, fun hx ho => ?_, fun hx => ?_, hregs, hpc, hsame, fun k e y => ?_⟩
  · rw [hold h, shrResult_toNat]
  · rw [hreread hx ho, shrResult_flagByte]
  · rw [hflag hx, flagByte_toNat, shrFlag_toNat]
  · obtain ⟨-, -, hShr, -⟩ := unusedBitsAreIgnored k e x y 0
    exact hShr

/-- Settles O21: SHL is a shift, and O12 ignores `Y`. -/
theorem shiftLeftKeepsTheLostBit : Obligations.ShiftLeftKeepsTheLostBit := by
  intro s x
  obtain ⟨t, ht, hold, hreread, hflag, hregs, hpc, hsame⟩ := shift_answers (i := .shl x) (s := s) rfl
  refine ⟨t, ht, fun h => ?_, fun hx ho => ?_, fun hx => ?_, hregs, hpc, hsame, fun k e y => ?_⟩
  · rw [hold h, shlResult_toNat]
  · rw [hreread hx ho, shlResult_toNat, flagByte_toNat, shlFlag_toNat]
    omega
  · rw [hflag hx, flagByte_toNat, shlFlag_toNat]
  · obtain ⟨-, -, -, hShl⟩ := unusedBitsAreIgnored k e x y 0
    exact hShl

end Sys2Proof.Machine
end

section
/-! PROOFS. The index register, BCD and the block store and load (43_index_memory.md R150 to R155). The answers
are those of Laws/Exec.lean; what is added here is the bytes LD B and LD [I], Vx leave, and the frames. -/

namespace Sys2Proof.Machine

variable {i : Instr} {s t : State} {x : Reg} {w : Word} {a n : Nat}

/-! ### Frames -/

theorem SameBut.writeI (h : SameBut [] s t) (w : Word) : SameBut [.index] s (t.writeI w) := by
  intro p hp
  have hsame := h p List.not_mem_nil
  cases p with
  | index => exact absurd (List.mem_singleton.2 rfl) hp
  | _ => exact hsame

theorem SameBut.withMem (h : SameBut [] s t) (m : List Host.Cell) :
    SameBut [.memory] s { t with mem := m } := by
  intro p hp
  have hsame := h p List.not_mem_nil
  cases p with
  | memory => exact absurd (List.mem_singleton.2 rfl) hp
  | _ => exact hsame

theorem SameBut.withV (h : SameBut [] s t) (v : Vector Byte 16) : SameBut [] s { t with v := v } := by
  intro p hp
  have hsame := h p hp
  cases p <;> exact hsame

theorem State.writeIndexFlag_advance_sameBut (s : State) (o : Bool) :
    SameBut [] s (s.advance.writeIndexFlag o) := by
  rw [State.writeIndexFlag_eq]
  exact s.advance_sameBut.withV _

/-! ### The index register -/

theorem glyphAddress_toNat (d : Byte) : (glyphAddress d).toNat = 0x050 + 5 * d.toNat := by
  unfold glyphAddress fontBase glyphBytes
  rw [BitVec.toNat_ofNat]
  omega

theorem indexOverflow_iff {b : Byte} : indexOverflow w b = true ↔ 0xFFF < w.toNat + b.toNat :=
  decide_eq_true_iff

/-- An instruction whose meaning is a write of `I` changes `I` and advances `pc`. -/
theorem writeI_answers (hi : exec i s = .next (s.advance.writeI w)) (hw : w.toNat = n) :
    ∃ t, exec i s = .next t ∧ t.i.toNat = n ∧ t.pc = s.pc + 2 ∧ RegsSame s t ∧ SameBut [.index] s t :=
  ⟨_, hi, hw, rfl, s.advance_readV, s.advance_sameBut.writeI w⟩

/-- Settles O32: both are writes of `I`, of the operand and of the glyph's address. -/
theorem indexLoadsSetI : Obligations.IndexLoadsSetI := fun _ =>
  ⟨fun nnn => writeI_answers rfl (addrOperand_toNat nnn), fun _ => writeI_answers rfl (glyphAddress_toNat _)⟩

/-- Settles O33: the flag is a write of VF or nothing, and the sum a write of `I`. -/
theorem addToIndexFlagsPastFFF : Obligations.AddToIndexFlagsPastFFF := by
  intro s x
  refine ⟨_, rfl, BitVec.toNat_ofNat .., ?_, fun q hq => ?_, State.writeIndexFlag_pc ..,
    (s.writeIndexFlag_advance_sameBut _).writeI _⟩
  · rw [State.writeI_readV, State.readV_writeIndexFlag, if_pos rfl]
    exact if_congr indexOverflow_iff rfl rfl
  · rw [State.writeI_readV, State.readV_writeIndexFlag, if_neg hq, State.advance_readV]

/-! ### The digits -/

theorem hundredsDigit_toNat (b : Byte) : (hundredsDigit b).toNat = b.toNat / 100 := by
  rw [hundredsDigit, BitVec.toNat_ofNat]
  omega

theorem tensDigit_toNat (b : Byte) : (tensDigit b).toNat = b.toNat / 10 % 10 := by
  rw [tensDigit, BitVec.toNat_ofNat]
  omega

theorem onesDigit_toNat (b : Byte) : (onesDigit b).toNat = b.toNat % 10 := by
  rw [onesDigit, BitVec.toNat_ofNat]
  omega

/-- The bytes after an LD B inside the address space: the digits at `I`, `I+1`, `I+2`, the others as before. -/
theorem exec_ldB_byteAt (h : exec (.ldB x) s = .next t) (hle : s.i.toNat + 2 ≤ 0xFFF) (a : Nat) :
    t.byteAt a = if a = s.i.toNat + 2 then onesDigit (s.readV x)
      else if a = s.i.toNat + 1 then tensDigit (s.readV x)
      else if a = s.i.toNat then hundredsDigit (s.readV x) else s.byteAt a := by
  change s.finish (s.advance.storeDigits (s.readV x)) = .next t at h
  rcases State.storeDigits_spec s.advance (s.readV x) with ⟨-, m, hm, -, hread⟩ | ⟨hlt, -⟩
  · rw [hm] at h
    cases h
    exact hread a
  · exact absurd hle (not_le.2 hlt)

/-- Settles O34, from LD B's two outcomes and the bytes it leaves. -/
theorem bcdStoresThreeDigits : Obligations.BcdStoresThreeDigits := by
  unfold Obligations.BcdStoresThreeDigits indexedAddress
  intro s x
  obtain ⟨t, ht⟩ := exec_answers (.ldB x) s
  obtain ⟨hle, m, rfl, -⟩ | ⟨hlt, rfl⟩ := exec_ldB_cases ht
  · refine ⟨fun _ => ⟨_, ht, ?_, ?_, ?_, fun a ha => ?_, rfl, s.advance_readV, s.advance_sameBut.withMem m⟩,
      fun hlt => absurd hle (not_le.2 hlt)⟩
    all_goals rw [exec_ldB_byteAt ht hle]
    · rw [if_neg (by omega), if_neg (by omega), if_pos (Nat.add_zero _), hundredsDigit_toNat]
    · rw [if_neg (by omega), if_pos rfl, tensDigit_toNat]
    · rw [if_pos rfl, onesDigit_toNat]
    · rw [if_neg (by omega), if_neg (by omega), if_neg (by omega)]
  · exact ⟨fun hle => absurd hle (not_le.2 hlt), fun _ => ⟨_, ht, rfl⟩⟩

/-! ### Block store and load -/

/-- A block store keeps every byte outside `I .. I+X`, also when it faults. -/
theorem exec_stBlock_byteAt_of_outside (h : exec (.stBlock x) s = .next t)
    (ha : a < s.i.toNat ∨ s.i.toNat + x.val < a) : t.byteAt a = s.byteAt a := by
  change s.finish (s.advance.storeRegs (x.val + 1)) = .next t at h
  rcases State.storeRegs_spec s.advance (x.val + 1) with ⟨-, m, hm, -, hread⟩ | ⟨-, he⟩
  · rw [hm] at h
    cases h
    exact (hread a).trans (if_neg (by rw [State.advance_i]; omega))
  · rw [he] at h
    cases h
    rfl

/-- Settles O35, from the block store's two outcomes, the bytes it writes and the bytes it keeps. -/
theorem blockStoreWritesTheRegisters : Obligations.BlockStoreWritesTheRegisters := by
  intro s x
  refine ⟨fun hle => ?_, fun hlt => ?_⟩
  · obtain ⟨t, ht, -, hbytes⟩ := exec_stBlock_bytes hle
    obtain ⟨-, m, rfl, -⟩ | ⟨hlt, -⟩ := exec_stBlock_cases ht
    · exact ⟨_, ht, hbytes, fun a ha => exec_stBlock_byteAt_of_outside ht ha, rfl, s.advance_readV,
        s.advance_sameBut.withMem m⟩
    · exact absurd hle (not_le.2 hlt)
  · obtain ⟨t, ht⟩ := exec_answers (.stBlock x) s
    obtain ⟨hle, -⟩ | ⟨-, rfl⟩ := exec_stBlock_cases ht
    · exact absurd hle (not_le.2 hlt)
    · exact ⟨_, ht, rfl⟩

/-- Settles O36, by the block load's two outcomes. -/
theorem blockLoadReadsTheRegisters : Obligations.BlockLoadReadsTheRegisters := by
  intro s x
  obtain ⟨t, ht⟩ := exec_answers (.ldBlock x) s
  obtain ⟨hle, v, rfl, hv⟩ | ⟨hlt, rfl⟩ := exec_ldBlock_cases ht
  · exact ⟨fun _ => ⟨_, ht, fun k hk => (hv k).trans (if_pos hk),
      fun k hk => (hv k).trans (if_neg (not_le.2 hk)), rfl, s.advance_sameBut.withV v⟩,
      fun hlt => absurd hle (not_le.2 hlt)⟩
  · exact ⟨fun hle => absurd hle (not_le.2 hlt), fun _ => ⟨_, ht, rfl⟩⟩

/-- Settles O37: the load of O36 reads the bytes O35's store left, at the same `I`. -/
theorem blockLoadUndoesBlockStore : Obligations.BlockLoadUndoesBlockStore := by
  intro s x hle
  obtain ⟨hstore, -⟩ := blockStoreWritesTheRegisters s x
  obtain ⟨t, ht, hbytes, -, -, -, hsame⟩ := hstore hle
  refine ⟨t, ht, fun t' hi hmem => ?_⟩
  have hi' : t'.i = s.i := hi.trans (hsame .index (by decide))
  obtain ⟨hload, -⟩ := blockLoadReadsTheRegisters t' x
  obtain ⟨u, hu, hregs, -⟩ := hload (hi' ▸ hle)
  refine ⟨u, hu, fun k hk => ?_⟩
  rw [hregs k hk, hmem, hi', hbytes k hk]

end Sys2Proof.Machine
end

section
/-! PROOFS. Timer writes, the key skips and the key wait (44_timers_keypad.md R171 to R175). A key skip is said
once for both senses of its test, and `lowestKey` is characterised by the keys that are pressed. -/

namespace Sys2Proof.Machine

variable {i : Instr} {s t : State} {x : Reg} {k : Key}

/-! ### Timers -/

theorem SameBut.withTimers (h : SameBut [] s t) (dt st : Byte) :
    SameBut [.timers] s { t with dt := dt, st := st } := by
  intro p hp
  have hsame := h p List.not_mem_nil
  cases p with
  | timers => exact absurd (List.mem_singleton.2 rfl) hp
  | _ => exact hsame

theorem State.tick_dt_of_zero (h : s.dt = 0) : s.tick.1.dt = 0 := if_pos h

theorem State.tick_tone_iff : s.tick.2 = true ↔ s.st = 1 := beq_iff_eq

/-- Settles O39: each write replaces its timer in the advanced state, and the tick reads the timer written. -/
theorem timerWritesSetTheirTimer : Obligations.TimerWritesSetTheirTimer := fun s x =>
  ⟨⟨_, rfl, rfl, rfl, rfl, s.advance_readV, s.advance_sameBut.withTimers (s.readV x) s.st,
      fun hx => State.tick_dt_of_zero hx⟩,
    ⟨_, rfl, rfl, rfl, rfl, s.advance_readV, s.advance_sameBut.withTimers s.dt (s.readV x),
      State.tick_tone_iff⟩⟩

/-! ### Key skips -/

theorem keyOfByte_of_eq {b : Byte} (h : b.toNat = k.val) : keyOfByte b = .ok k := by
  rw [keyOfByte_of_lt (h ▸ k.isLt)]
  exact congrArg Except.ok (Fin.ext h)

/-- A skip on a test of the key `V[X]` names is that skip when `V[X]` names one. -/
theorem keySkip_of_key {test : Key → Bool}
    (hi : exec i s = s.finish ((keyOfByte (s.readV x)).map fun j => s.advance.skipIf (test j)))
    (hk : (s.readV x).toNat = k.val) : exec i s = .next (s.advance.skipIf (test k)) := by
  rw [hi, keyOfByte_of_eq hk]
  rfl

/-- A skip on a test of the key `V[X]` names faults when `V[X]` names none. -/
theorem keySkip_of_no_key {test : Key → Bool}
    (hi : exec i s = s.finish ((keyOfByte (s.readV x)).map fun j => s.advance.skipIf (test j)))
    (hx : 15 < (s.readV x).toNat) : exec i s = .next (s.enterFault .keyRange) := by
  rw [hi, keyOfByte_of_le hx]
  rfl

/-- Settles O40: SKP tests that the named key is pressed, SKNP that it is not. -/
theorem keySkipsTestTheNamedKey : Obligations.KeySkipsTestTheNamedKey := by
  refine fun s x => ⟨fun k hk => ⟨?_, ?_⟩, fun hx => ⟨?_, ?_⟩⟩
  · exact skip_answers (keySkip_of_key rfl hk) rfl
  · exact skip_answers (keySkip_of_key rfl hk) (by cases s.keyDown k <;> rfl)
  · exact ⟨_, keySkip_of_no_key rfl hx, rfl⟩
  · exact ⟨_, keySkip_of_no_key rfl hx, rfl⟩

/-! ### The key wait -/

theorem lowestKey_eq_none_of_keyDown (h : ∀ j, s.keyDown j = false) : lowestKey s.key = none := by
  cases hl : lowestKey s.key with
  | none => rfl
  | some j =>
    obtain ⟨hdown, -⟩ := lowestKey_eq_some hl
    exact absurd hdown (Bool.eq_false_iff.1 (h j))

theorem lowestKey_eq_some_of_keyDown (hk : s.keyDown k = true) (hlow : ∀ j, j < k → s.keyDown j = false) :
    lowestKey s.key = some k := by
  cases hl : lowestKey s.key with
  | none => exact absurd hk (Bool.eq_false_iff.1 (lowestKey_eq_none hl k))
  | some j =>
    obtain ⟨hdown, hbelow⟩ := lowestKey_eq_some hl
    have hjk : ¬ j < k := fun hlt => absurd hdown (Bool.eq_false_iff.1 (hlow j hlt))
    have hkj : ¬ k < j := fun hlt => absurd hk (Bool.eq_false_iff.1 (hbelow k hlt))
    rw [le_antisymm (not_lt.1 hkj) (not_lt.1 hjk)]

/-- Settles O41: with a lowest pressed key LD Vx, K is a write of that key to `V[X]`, and with none it is no
change at all. -/
theorem keyWaitTakesTheLowestKeyOrStays : Obligations.KeyWaitTakesTheLowestKeyOrStays := by
  refine fun s x => ⟨fun k hk hlow => ?_, fun hnone => exec_ldK_of_none (lowestKey_eq_none_of_keyDown hnone)⟩
  obtain ⟨t, ht, hx, hframe⟩ := writeV_answers (exec_ldK_of_some (lowestKey_eq_some_of_keyDown hk hlow))
  have hval : (BitVec.ofNat 8 k.val).toNat = k.val := Nat.mod_eq_of_lt (by omega)
  exact ⟨t, ht, hx ▸ hval, hframe⟩

end Sys2Proof.Machine
end

section
/-! PROOFS. The display instructions CLS and DRW (45_display.md R180 to R182). `drwPixels` lists the pixels a DRW
toggles, which are those its sprite covers; what DRW does to the framebuffer and to VF is said in terms of the
covered pixels, and drawing twice (R182) follows from these rules used twice. -/

namespace Sys2Proof.Machine

variable {s t : State} {x y : Reg} {n : Nibble} {px : Fin 64} {py : Fin 32}

/-! ### Clearing the screen -/

theorem clearedFramebuffer_pixel (px : Fin 64) (py : Fin 32) : clearedFramebuffer.pixel px py = false := by
  change ((Vector.replicate 32 (0 : BitVec 64))[py.val]).getLsbD px.val = false
  rw [Vector.getElem_replicate]
  exact BitVec.getLsbD_zero

theorem SameBut.withDisplay (h : SameBut [] s t) (fb : Framebuffer) (dirty : Bool) :
    SameBut [.display] s { t with fb := fb, dirty := dirty } := by
  intro p hp
  have hsame := h p List.not_mem_nil
  cases p with
  | display => exact absurd (List.mem_singleton.2 rfl) hp
  | _ => exact hsame

/-- Settles O42: the next state is the advanced one with the cleared framebuffer and `DIRTY` set. -/
theorem clearScreenTurnsEveryPixelOff : Obligations.ClearScreenTurnsEveryPixelOff := fun s =>
  ⟨_, rfl, clearedFramebuffer_pixel, rfl, rfl, s.advance_readV,
    s.advance_sameBut.withDisplay clearedFramebuffer true⟩

/-! ### The pixels a sprite covers -/

/-- The bytes at `I .. I+n-1`, the rows of the sprite that DRW draws. -/
def State.spriteRows (s : State) (n : Nibble) : List Byte :=
  (List.range n.toNat).map fun r => s.byteAt (s.i.toNat + r)

theorem State.spriteRows_length (s : State) (n : Nibble) : (s.spriteRows n).length = n.toNat := by
  simp [State.spriteRows]

theorem State.spriteRows_getD {r : Nat} (hr : r < n.toNat) :
    (s.spriteRows n).getD r 0 = s.byteAt (s.i.toNat + r) := by
  simp [State.spriteRows, hr]

/-- The pixels DRW toggles. -/
def State.drwPixels (s : State) (x y : Reg) (n : Nibble) : List (Fin 64 × Fin 32) :=
  spritePixels (s.readV x) (s.readV y) 0 (s.spriteRows n)

/-- DRW toggles the pixels its sprite covers. -/
theorem mem_drwPixels_iff : (px, py) ∈ s.drwPixels x y n ↔ SpriteCovers s x y n px py := by
  unfold State.drwPixels SpriteCovers
  rw [mem_spritePixels, State.spriteRows_length]
  refine exists_congr fun r => exists_congr fun c => and_congr_right fun hr => ?_
  rw [State.spriteRows_getD hr, Nat.zero_add, Fin.ext_iff, Fin.ext_iff]
  rfl

/-- A sprite has at most 15 rows, so its rows do not overlap. -/
theorem State.drwPixels_nodup (s : State) (x y : Reg) (n : Nibble) : (s.drwPixels x y n).Nodup := by
  apply spritePixels_nodup
  rw [State.spriteRows_length]
  omega

/-- Every 1 bit of the rows covers a pixel. -/
theorem exists_spriteCovers_iff : (∃ px py, SpriteCovers s x y n px py) ↔
    ∃ r c : Nat, r < n.toNat ∧ c < 8 ∧ (s.byteAt (s.i.toNat + r)).getLsbD c = true := by
  constructor
  · rintro ⟨px, py, r, c, hr, hc, hbit, -, -⟩
    exact ⟨r, 7 - c, hr, by omega, hbit⟩
  · rintro ⟨r, c, hr, hc, hbit⟩
    have hcol : 7 - (7 - c) = c := by omega
    exact ⟨pixelColumn (s.readV x) (7 - c), pixelRow (s.readV y) r, r, 7 - c, hr, by omega,
      hcol.symm ▸ hbit, rfl, rfl⟩

/-- The sprite depends on the rows at `I` and on the two coordinates. -/
theorem spriteCovers_congr (hi : t.i = s.i) (hmem : ∀ a, t.byteAt a = s.byteAt a)
    (hx : t.readV x = s.readV x) (hy : t.readV y = s.readV y) :
    SpriteCovers t x y n px py ↔ SpriteCovers s x y n px py := by
  unfold SpriteCovers
  rw [hi, hx, hy]
  simp only [hmem]

/-! ### What DRW does to the framebuffer and to VF -/

/-- The collision flag says that a covered pixel was lit. -/
theorem drawPixels_collision_iff : (drawPixels s.fb (s.drwPixels x y n)).2 = true ↔
    ∃ px py, SpriteCovers s x y n px py ∧ s.fb.pixel px py = true := by
  obtain ⟨-, hcollision⟩ := drawPixels_spec (s.drwPixels_nodup x y n) s.fb
  rw [hcollision, Prod.exists]
  simp only [mem_drwPixels_iff]

theorem flagByte_eq_one_iff {c : Bool} : flagByte c = 1 ↔ c = true := by cases c <;> decide

theorem flagByte_eq_zero_iff {c : Bool} : flagByte c = 0 ↔ c = false := by cases c <;> decide

section Drawn

variable (hrows : s.i.toNat + n.toNat ≤ 0x1000 ∨ n = 0) (h : exec (.drw x y n) s = .next t)
include hrows h

theorem exec_drw_eq_blit : t = s.advance.blit (s.readV x) (s.readV y) (s.spriteRows n) := by
  obtain ⟨-, ht⟩ | ⟨hlt, hn, -⟩ := exec_drw_cases h
  · exact ht
  · exact absurd hrows (not_or.2 ⟨not_le.2 hlt, hn⟩)

theorem exec_drw_pixel (px : Fin 64) (py : Fin 32) :
    t.fb.pixel px py = (s.fb.pixel px py ^^ decide ((px, py) ∈ s.drwPixels x y n)) := by
  obtain ⟨hpixel, -⟩ := drawPixels_spec (s.drwPixels_nodup x y n) s.fb
  rw [exec_drw_eq_blit hrows h]
  exact hpixel px py

theorem exec_drw_readV (q : Reg) : t.readV q =
    if q = vf then flagByte (drawPixels s.fb (s.drwPixels x y n)).2 else s.readV q := by
  rw [exec_drw_eq_blit hrows h, State.readV_blit]
  rfl

theorem exec_drw_sameBut : SameBut [.display] s t := by
  rw [exec_drw_eq_blit hrows h]
  exact (s.advance_sameBut.withV _).withDisplay _ true

theorem exec_drw_pixel_of_covers (hc : SpriteCovers s x y n px py) :
    t.fb.pixel px py = !s.fb.pixel px py := by
  rw [exec_drw_pixel hrows h, decide_eq_true (mem_drwPixels_iff.2 hc), Bool.xor_true]

theorem exec_drw_pixel_of_not_covers (hc : ¬ SpriteCovers s x y n px py) :
    t.fb.pixel px py = s.fb.pixel px py := by
  rw [exec_drw_pixel hrows h, decide_eq_false (mt mem_drwPixels_iff.1 hc), Bool.xor_false]

theorem exec_drw_readV_of_ne {q : Reg} (hq : q ≠ vf) : t.readV q = s.readV q := by
  rw [exec_drw_readV hrows h, if_neg hq]

theorem exec_drw_vf_eq_one_iff :
    t.readV vf = 1 ↔ ∃ px py, SpriteCovers s x y n px py ∧ s.fb.pixel px py = true := by
  rw [exec_drw_readV hrows h, if_pos rfl, flagByte_eq_one_iff, drawPixels_collision_iff]

theorem exec_drw_vf_eq_zero_iff :
    t.readV vf = 0 ↔ ∀ px py, SpriteCovers s x y n px py → s.fb.pixel px py = false := by
  rw [exec_drw_readV hrows h, if_pos rfl, flagByte_eq_zero_iff, ← Bool.not_eq_true, drawPixels_collision_iff]
  simp only [not_exists, not_and, Bool.not_eq_true]

end Drawn

/-- Settles O43: with the rows in range DRW is said pixel by pixel above, and otherwise it enters the fault. -/
theorem drawFlipsTheSpritePixels : Obligations.DrawFlipsTheSpritePixels := by
  intro s x y n
  obtain ⟨t, ht⟩ := exec_answers (.drw x y n) s
  refine ⟨fun hrows => ⟨t, ht, fun _ _ => exec_drw_pixel_of_covers hrows ht,
    fun _ _ => exec_drw_pixel_of_not_covers hrows ht, (exec_drw_vf_eq_one_iff hrows ht).2,
    (exec_drw_vf_eq_zero_iff hrows ht).2, ?_, fun _ => exec_drw_readV_of_ne hrows ht, ?_,
    exec_drw_sameBut hrows ht⟩, fun hlt hn => ?_⟩
  · rw [exec_drw_eq_blit hrows ht, State.blit_dirty]
  · rw [exec_drw_eq_blit hrows ht, State.blit_pc, State.advance_pc]
  · obtain ⟨hrows, -⟩ | ⟨-, -, rfl⟩ := exec_drw_cases ht
    · exact absurd hrows (not_or.2 ⟨not_le.2 hlt, hn⟩)
    · exact ⟨_, ht, rfl⟩

/-! ### Drawing twice -/

/-- A draw leaves the sprite as it was when its coordinates do not come from VF. -/
theorem spriteCovers_after_drw (hrows : s.i.toNat + n.toNat ≤ 0x1000 ∨ n = 0)
    (h : exec (.drw x y n) s = .next t) (hx : x ≠ vf) (hy : y ≠ vf) :
    SpriteCovers t x y n px py ↔ SpriteCovers s x y n px py := by
  have hsame := exec_drw_sameBut hrows h
  exact spriteCovers_congr (hsame .index (by decide)) (hsame .memory (by decide))
    (exec_drw_readV_of_ne hrows h hx) (exec_drw_readV_of_ne hrows h hy)

/-- Settles O44: the second draw covers the same pixels, which the first draw left flipped. -/
theorem drawingTwiceRestoresTheFramebuffer : Obligations.DrawingTwiceRestoresTheFramebuffer := by
  intro s x y n hx hy hle
  obtain ⟨t, ht⟩ := exec_answers (.drw x y n) s
  obtain ⟨u, hu⟩ := exec_answers (.drw x y n) t
  have hi : t.i = s.i := exec_drw_sameBut (.inl hle) ht .index (by decide)
  have hle' : t.i.toNat + n.toNat ≤ 0x1000 := hi ▸ hle
  have hcov (px py) : SpriteCovers t x y n px py ↔ SpriteCovers s x y n px py :=
    spriteCovers_after_drw (.inl hle) ht hx hy
  have hfirst := exec_drw_vf_eq_zero_iff (.inl hle) ht
  have hsecond : u.readV vf = 1 ↔ ∃ px py, SpriteCovers s x y n px py ∧ s.fb.pixel px py = false := by
    rw [exec_drw_vf_eq_one_iff (.inl hle') hu]
    refine exists_congr fun px => exists_congr fun py => ?_
    rw [hcov]
    refine and_congr_right fun hc => ?_
    rw [exec_drw_pixel_of_covers (.inl hle) ht hc, Bool.not_eq_true']
  refine ⟨t, u, ht, hu, Framebuffer.ext_pixel fun px py => ?_, hfirst, hsecond, fun h0 => ?_⟩
  · by_cases hc : SpriteCovers s x y n px py
    · rw [exec_drw_pixel_of_covers (.inl hle') hu ((hcov px py).2 hc),
        exec_drw_pixel_of_covers (.inl hle) ht hc, Bool.not_not]
    · rw [exec_drw_pixel_of_not_covers (.inl hle') hu (mt (hcov px py).1 hc),
        exec_drw_pixel_of_not_covers (.inl hle) ht hc]
  · have hunlit := hfirst.1 h0
    rw [hsecond, ← exists_spriteCovers_iff]
    exact exists_congr fun px => exists_congr fun py => and_iff_left_of_imp (hunlit px py)

end Sys2Proof.Machine
end

section
/-! PROOFS. Faults and the halted engine (60_exceptions.md R201 to R205, R218), the timer's tick (R211, R212)
and the host's operations (R215, R216). `Raises` is R201's table and `exec_fault_cases` says once that an
instruction enters the fault the table lists for it, or leaves `FAULT` and `FAULT_PC` alone. -/

namespace Sys2Proof.Machine

variable {i : Instr} {s t : State} {c : Cause} {op : Word}

/-! ### Which instruction raises which cause -/

/-- R201's table without its fetch row: the cause an instruction raises in a state, under its condition. -/
inductive Raises (s : State) : Instr → Cause → Prop where
  | drw (x y : Reg) (n : Nibble) (hn : n ≠ 0) (h : 0xFFF < s.i.toNat + n.toNat - 1) :
      Raises s (.drw x y n) .memRange
  | ldB (x : Reg) (h : 0xFFF < s.i.toNat + 2) : Raises s (.ldB x) .memRange
  | stBlock (x : Reg) (h : 0xFFF < s.i.toNat + x.val) : Raises s (.stBlock x) .memRange
  | ldBlock (x : Reg) (h : 0xFFF < s.i.toNat + x.val) : Raises s (.ldBlock x) .memRange
  | call (nnn : Addr12) (h : s.sp.val = 16) : Raises s (.call nnn) .stackOverflow
  | ret (h : s.sp.val = 0) : Raises s .ret .stackUnderflow
  | skp (x : Reg) (h : 15 < (s.readV x).toNat) : Raises s (.skp x) .keyRange
  | sknp (x : Reg) (h : 15 < (s.readV x).toNat) : Raises s (.sknp x) .keyRange

theorem Raises.ne_none (h : Raises s i c) : c ≠ .none := by cases h <;> nofun

theorem Raises.ne_fetchRange (h : Raises s i c) : c ≠ .fetchRange := by cases h <;> nofun

/-- An instruction raises at most one cause. -/
theorem Raises.unique {c' : Cause} (h : Raises s i c) (h' : Raises s i c') : c = c' := by
  cases h <;> cases h' <;> rfl

theorem raises_memRange_iff : Raises s i .memRange ↔
    (∃ x y n, i = .drw x y n ∧ n ≠ 0 ∧ 0xFFF < s.i.toNat + n.toNat - 1) ∨
    (∃ x, i = .ldB x ∧ 0xFFF < s.i.toNat + 2) ∨
    ∃ x : Reg, (i = .stBlock x ∨ i = .ldBlock x) ∧ 0xFFF < s.i.toNat + x.val := by
  constructor
  · intro h
    cases h with
    | drw x y n hn h => exact .inl ⟨x, y, n, rfl, hn, h⟩
    | ldB x h => exact .inr (.inl ⟨x, rfl, h⟩)
    | stBlock x h => exact .inr (.inr ⟨x, .inl rfl, h⟩)
    | ldBlock x h => exact .inr (.inr ⟨x, .inr rfl, h⟩)
  · rintro (⟨x, y, n, rfl, hn, h⟩ | ⟨x, rfl, h⟩ | ⟨x, rfl | rfl, h⟩)
    · exact .drw x y n hn h
    · exact .ldB x h
    · exact .stBlock x h
    · exact .ldBlock x h

theorem raises_stackOverflow_iff :
    Raises s i .stackOverflow ↔ ∃ nnn, i = .call nnn ∧ s.sp.val = 16 := by
  constructor
  · intro (.call nnn h)
    exact ⟨nnn, rfl, h⟩
  · rintro ⟨nnn, rfl, h⟩
    exact .call nnn h

theorem raises_stackUnderflow_iff : Raises s i .stackUnderflow ↔ i = .ret ∧ s.sp.val = 0 := by
  constructor
  · intro (.ret h)
    exact ⟨rfl, h⟩
  · rintro ⟨rfl, h⟩
    exact .ret h

theorem raises_keyRange_iff :
    Raises s i .keyRange ↔ ∃ x, (i = .skp x ∨ i = .sknp x) ∧ 15 < (s.readV x).toNat := by
  constructor
  · intro h
    cases h with
    | skp x h => exact ⟨x, .inl rfl, h⟩
    | sknp x h => exact ⟨x, .inr rfl, h⟩
  · rintro ⟨x, rfl | rfl, h⟩
    · exact .skp x h
    · exact .sknp x h

/-- An instruction enters the fault it raises, or raises none and leaves `FAULT` and `FAULT_PC` alone. -/
theorem exec_fault_cases (h : exec i s = .next t) :
    (∃ c, Raises s i c ∧ t = s.enterFault c) ∨ (∀ c, ¬ Raises s i c) ∧ Part.fault.Same s t := by
  cases i with
  | ret =>
    obtain ⟨n, hn, hsp, rfl⟩ | ⟨hsp, rfl⟩ := exec_ret_cases h
    · exact .inr ⟨fun _ (.ret h0) => absurd (h0.symm.trans (congrArg Fin.val hsp)) nofun, rfl, rfl⟩
    · exact .inl ⟨_, .ret (congrArg Fin.val hsp), rfl⟩
  | call nnn =>
    obtain ⟨hlt, rfl⟩ | ⟨hsp, rfl⟩ := exec_call_cases h
    · exact .inr ⟨fun _ (.call _ h16) => by omega, rfl, rfl⟩
    · exact .inl ⟨_, .call nnn hsp, rfl⟩
  | skp x =>
    obtain ⟨hk, rfl⟩ | ⟨hk, rfl⟩ := exec_skp_cases h
    · exact .inr ⟨fun _ (.skp _ hlt) => by omega, State.skipIf_fault .., State.skipIf_faultPc ..⟩
    · exact .inl ⟨_, .skp x hk, rfl⟩
  | sknp x =>
    obtain ⟨hk, rfl⟩ | ⟨hk, rfl⟩ := exec_sknp_cases h
    · exact .inr ⟨fun _ (.sknp _ hlt) => by omega, State.skipIf_fault .., State.skipIf_faultPc ..⟩
    · exact .inl ⟨_, .sknp x hk, rfl⟩
  | ldB x =>
    obtain ⟨hle, m, rfl, -⟩ | ⟨hlt, rfl⟩ := exec_ldB_cases h
    · exact .inr ⟨fun _ (.ldB _ hlt) => by omega, rfl, rfl⟩
    · exact .inl ⟨_, .ldB x hlt, rfl⟩
  | stBlock x =>
    obtain ⟨hle, m, rfl, -⟩ | ⟨hlt, rfl⟩ := exec_stBlock_cases h
    · exact .inr ⟨fun _ (.stBlock _ hlt) => by omega, rfl, rfl⟩
    · exact .inl ⟨_, .stBlock x hlt, rfl⟩
  | ldBlock x =>
    obtain ⟨hle, w, rfl, -⟩ | ⟨hlt, rfl⟩ := exec_ldBlock_cases h
    · exact .inr ⟨fun _ (.ldBlock _ hlt) => by omega, rfl, rfl⟩
    · exact .inl ⟨_, .ldBlock x hlt, rfl⟩
  | drw x y n =>
    obtain ⟨hle, rfl⟩ | ⟨hlt, hn, rfl⟩ := exec_drw_cases h
    · exact .inr ⟨fun _ (.drw _ _ _ hn hlt) => hle.elim (by omega) hn, rfl, rfl⟩
    · exact .inl ⟨_, .drw x y n hn (by omega), rfl⟩
  | ldK x =>
    obtain ⟨k, -, rfl⟩ | ⟨-, rfl⟩ := exec_ldK_cases h
    · exact .inr ⟨nofun, rfl, rfl⟩
    · exact .inr ⟨nofun, rfl, rfl⟩
  | seImm | sneImm | seReg | sneReg =>
    cases h
    exact .inr ⟨nofun, State.skipIf_fault .., State.skipIf_faultPc ..⟩
  | sub | shr | subn | shl =>
    cases h
    exact .inr ⟨nofun, State.flagOp_fault .., State.flagOp_faultPc ..⟩
  | addI =>
    cases h
    exact .inr ⟨nofun, State.writeIndexFlag_fault .., State.writeIndexFlag_faultPc ..⟩
  | _ =>
    cases h
    exact .inr ⟨nofun, rfl, rfl⟩

/-- An instruction that leaves a running state holds a cause exactly when it raised it. -/
theorem exec_fault_eq_iff (hrun : s.fault = .none) (h : exec i s = .next t) (c : Cause) (hc : c ≠ .none) :
    t.fault = c ↔ Raises s i c := by
  obtain ⟨c', hr, rfl⟩ | ⟨hno, hfault, -⟩ := exec_fault_cases h
  · exact ⟨fun e => e ▸ hr, hr.unique⟩
  · exact ⟨fun e => absurd (e.symm.trans (hfault.trans hrun)) hc, fun hr => absurd hr (hno c)⟩

/-! ### Precise faults -/

/-- R203: `FAULT` and `FAULT_PC` are as before, or they are all that changed. -/
def PreciseFault (s t : State) : Prop := Part.fault.Same s t ∨ ∃ c, c ≠ .none ∧ FaultsWith c s t

theorem preciseFault_enterFault (hc : c ≠ .none) : PreciseFault s (s.enterFault c) := .inr ⟨c, hc, rfl⟩

theorem exec_preciseFault (h : exec i s = .next t) : PreciseFault s t := by
  obtain ⟨c, hr, rfl⟩ | ⟨-, hsame⟩ := exec_fault_cases h
  · exact preciseFault_enterFault hr.ne_none
  · exact .inl hsame

theorem State.cycle_preciseFault (h : s.cycle = .next t) : PreciseFault s t := by
  obtain ⟨-, rfl⟩ | ⟨-, -, rfl⟩ | ⟨-, -, i, -, he⟩ := State.cycle_cases h
  · exact .inl ⟨rfl, rfl⟩
  · exact preciseFault_enterFault nofun
  · exact exec_preciseFault he

/-- A fault of a running engine records the address the engine stood at (R201). -/
theorem PreciseFault.faultPc_eq (h : PreciseFault s t) (hrun : s.fault = .none) (ht : t.fault ≠ .none) :
    t.faultPc = s.pc := by
  obtain ⟨hfault, -⟩ | ⟨c, -, rfl⟩ := h
  · exact absurd (hfault.trans hrun) ht
  · rfl

theorem exec_fault_ne_fetchRange (hrun : s.fault = .none) (h : exec i s = .next t) :
    t.fault ≠ .fetchRange := fun e => ((exec_fault_eq_iff hrun h .fetchRange nofun).1 e).ne_fetchRange rfl

theorem State.cycle_fault_eq_fetchRange_iff (hrun : s.fault = .none) (h : s.cycle = .next t) :
    t.fault = .fetchRange ↔ 0xFFF < s.pc.toNat + 1 := by
  obtain ⟨hhalt, -⟩ | ⟨-, hlt, rfl⟩ | ⟨-, hle, i, -, he⟩ := State.cycle_cases h
  · exact absurd hrun hhalt
  · exact iff_of_true rfl hlt
  · exact iff_of_false (exec_fault_ne_fetchRange hrun he) (by omega)

/-- Settles O51: a running state holds a cause after an instruction exactly when `Raises` lists it, and after
a fetch past 0xFFE. -/
theorem causesAreRaisedExactlyWhenListed : Obligations.CausesAreRaisedExactlyWhenListed := by
  refine ⟨rfl, fun s t hrun h => ?_, fun i s t hrun h => ?_⟩
  · exact ⟨State.cycle_fault_eq_fetchRange_iff hrun h, (State.cycle_preciseFault h).faultPc_eq hrun⟩
  · exact ⟨exec_fault_ne_fetchRange hrun h, (exec_preciseFault h).faultPc_eq hrun,
      (exec_fault_eq_iff hrun h .memRange nofun).trans raises_memRange_iff,
      (exec_fault_eq_iff hrun h .stackOverflow nofun).trans raises_stackOverflow_iff,
      (exec_fault_eq_iff hrun h .stackUnderflow nofun).trans raises_stackUnderflow_iff,
      (exec_fault_eq_iff hrun h .keyRange nofun).trans raises_keyRange_iff⟩

/-- Settles O50: an instruction enters a fault or leaves `FAULT` alone, and so does each branch of a cycle. -/
theorem faultsArePrecise : Obligations.FaultsArePrecise :=
  ⟨fun _ _ _ => exec_preciseFault, fun _ _ => State.cycle_preciseFault⟩

/-- Settles O49, by `exec_answers`, which splits on the instruction. -/
theorem everyInstructionAnswersANextState : Obligations.EveryInstructionAnswersANextState := exec_answers

/-! ### The ends of a run -/

theorem decode_family1 (k e : DecodeKey) (h : fieldF op = 0x1) : decode k e op = .ok (.jp (fieldNNN op)) := by
  simp [decode, h]

/-- A good end is a running engine at a jump whose target is its own address (R218 (b)). -/
theorem State.goodEnd_iff : s.goodEnd = true ↔ s.fault = .none ∧
    ∃ op, s.fetch = .ok op ∧ fieldF op = 0x1 ∧ addrOperand (fieldNNN op) = s.pc := by
  unfold State.goodEnd
  cases s.fetch <;> simp [addrOperand]

theorem exec_jp_self {nnn : Addr12} (h : addrOperand nnn = s.pc) : exec (.jp nnn) s = .next s := by
  change Host.Outcome.next (s.advance.writePc (addrOperand nnn)) = .next s
  rw [h]
  rfl

/-- Settles O29: the cycle decodes the jump, which writes to `pc` the address `pc` holds. -/
theorem goodEndIsAFixedPoint : Obligations.GoodEndIsAFixedPoint := by
  intro s hgood hturn
  obtain ⟨hrun, op, hfetch, hfamily, hself⟩ := State.goodEnd_iff.1 hgood
  rw [step_of_no_turn hturn, State.cycle_of_decode hrun hfetch (decode_family1 _ _ hfamily)]
  exact exec_jp_self hself

/-- What a halted engine keeps until reset (R204, R205). -/
def EngineSame (s t : State) : Prop :=
  t.fault = s.fault ∧ t.faultPc = s.faultPc ∧ t.pc = s.pc ∧ RegsSame s t ∧ t.i = s.i ∧
    Part.stack.Same s t ∧ t.fb = s.fb ∧ Part.draws.Same s t

theorem engineSame_refl (s : State) : EngineSame s s :=
  ⟨rfl, rfl, rfl, fun _ => rfl, rfl, ⟨rfl, rfl⟩, rfl, rfl⟩

theorem State.load_engineSame (s : State) (bytes : List Byte) : EngineSame s (s.load bytes).1 := by
  unfold State.load
  split <;> exact engineSame_refl s

/-- No operation of the timer or the host but reset touches the engine. -/
theorem State.perform_engineSame {op : AgentOp} (hop : op ≠ .reset) : EngineSame s (s.perform op).1 := by
  cases op with
  | reset => exact absurd rfl hop
  | load bytes => exact State.load_engineSame s bytes
  | tick | key | present | status => exact engineSame_refl s

theorem State.cycle_eq_of_halted (hhalt : s.fault ≠ .none) (h : s.cycle = .next t) : t = s := by
  rw [State.cycle_of_halted hhalt] at h
  cases h
  rfl

/-- Settles O60: a halted engine's cycle changes nothing, and the operations but reset leave the engine
alone. -/
theorem onlyResetLeavesAFault : Obligations.OnlyResetLeavesAFault := by
  intro s t hhalt h hreset
  change EngineSame s t
  obtain ⟨-, hc⟩ | ⟨rest, -, hc⟩ | ⟨op, rest, hturn, rfl⟩ := step_cases h
  · exact State.cycle_eq_of_halted hhalt hc ▸ engineSame_refl s
  · exact State.cycle_eq_of_halted (s := { s with schedule := rest }) hhalt hc ▸ engineSame_refl s
  · have hop : op ≠ .reset := by
      rintro rfl
      exact hreset rest hturn
    exact State.perform_engineSame (s := { s with schedule := rest }) hop

/-! ### The timer and the host -/

theorem step_of_agent_turn {op : AgentOp} {rest : List Turn} (h : s.schedule = .agent op :: rest) :
    step s = .next (State.perform { s with schedule := rest } op).1 := by
  rw [step, State.takeTurn, h]

/-- Settles O47, by the turn's two pending branches. -/
theorem pendingTurnsAreTakenInOrder : Obligations.PendingTurnsAreTakenInOrder := fun _ _ =>
  ⟨fun _ => step_of_agent_turn, step_of_cycle_turn⟩

theorem sameBut_refl (s : State) : SameBut [] s s := by
  intro p _
  cases p with
  | memory => exact fun _ => rfl
  | stack | timers | display | fault | outside => exact ⟨rfl, rfl⟩
  | index | keypad | rom | draws => rfl

theorem SameBut.withKey (h : SameBut [] s t) (key : BitVec 16) : SameBut [.keypad] s { t with key := key } := by
  intro p hp
  have hsame := h p List.not_mem_nil
  cases p with
  | keypad => exact absurd (List.mem_singleton.2 rfl) hp
  | _ => exact hsame

theorem countDown_toNat (b : Byte) : (countDown b).toNat = b.toNat - 1 := by
  unfold countDown
  split
  next h => rw [h]; rfl
  next h => bv_omega

/-- Settles O45: both timers count down, and the tone is requested by the tick that finds `ST` at 1. -/
theorem tickCountsDownAndSignalsOnce : Obligations.TickCountsDownAndSignalsOnce := by
  intro s
  have hst : s.tick.1.st.toNat = s.st.toNat - 1 := countDown_toNat s.st
  refine ⟨countDown_toNat s.dt, hst, ?_, fun _ => rfl, rfl, (sameBut_refl s).withTimers _ _⟩
  rw [State.tick_tone_iff, hst]
  exact ⟨fun h => by simp [h], fun ⟨h, _⟩ => BitVec.eq_of_toNat_eq h⟩

theorem one_shiftLeft_getLsbD (k j : Key) : (1#16 <<< k.val).getLsbD j.val = decide (j = k) := by
  revert k j
  decide

/-- Bit `j` of the bitmap after `KEY[k] <- b` (R215). -/
theorem setKeyBit_getLsbD (key : BitVec 16) (k j : Key) (pressed : Bool) :
    (setKeyBit key k pressed).getLsbD j.val = if j = k then pressed else key.getLsbD j.val := by
  have hj : j.val < 16 := j.isLt
  unfold setKeyBit
  cases pressed
  · simp only [Bool.false_eq_true, if_false, BitVec.getLsbD_and, BitVec.getLsbD_not, one_shiftLeft_getLsbD, hj]
    by_cases e : j = k <;> simp [e]
  · simp only [if_true, BitVec.getLsbD_or, one_shiftLeft_getLsbD]
    by_cases e : j = k <;> simp [e]

theorem State.pressKey_keyDown (s : State) (k j : Key) (pressed : Bool) :
    (s.pressKey k pressed).keyDown j = if j = k then pressed else s.keyDown j :=
  setKeyBit_getLsbD s.key k j pressed

/-- Settles O48: `key` writes one bit of the keypad, `present` clears `DIRTY`, `status` reads. -/
theorem keyPresentAndStatusDoOnlyThat : Obligations.KeyPresentAndStatusDoOnlyThat := by
  refine fun s k pressed => ⟨⟨s.pressKey k pressed, rfl, ?_, fun j hj => ?_, fun _ => rfl, rfl,
      (sameBut_refl s).withKey _⟩,
    ⟨s.present.1, rfl, rfl, rfl, fun _ => rfl, rfl, (sameBut_refl s).withDisplay s.fb false⟩, rfl⟩
  · rw [State.pressKey_keyDown, if_pos rfl]
  · rw [State.pressKey_keyDown, if_neg hj]

end Sys2Proof.Machine
end

section
/-! PROOFS. Construction, load and reset (70_reset_and_hazards.md R230 to R236). A reset leaves the state that
construction and a load of `ROMBUF` give, but for the model's own count of draws and pending turns
(`State.resetOp_eq`), so each field is read off once, at construction, and each byte once, after a load. -/

namespace Sys2Proof.Machine

variable {font : Font} {bytes : List Byte} {a k j : Nat}

/-! ### The blank contents -/

theorem blankByte_of_outside_font (h : a < 0x050 ∨ 0x0A0 ≤ a) : blankByte font a = 0 :=
  if_neg (by unfold fontBase fontBytes; omega)

theorem blankByte_glyph (hk : k < 16) (hj : j < 5) : blankByte font (0x050 + 5 * k + j) = (font[k])[j] := by
  have hin : fontBase ≤ 0x050 + 5 * k + j ∧ 0x050 + 5 * k + j < fontBase + fontBytes := by
    unfold fontBase fontBytes
    omega
  have hglyph : (0x050 + 5 * k + j - fontBase) / glyphBytes = k := by
    unfold fontBase glyphBytes
    omega
  have hrow : (0x050 + 5 * k + j - fontBase) % glyphBytes = j := by
    unfold fontBase glyphBytes
    omega
  simp only [blankByte, if_pos hin, hglyph, hrow, Vector.getElem?_eq_getElem, hk, hj, Option.bind_some,
    Option.getD_some]

/-! ### Construction -/

theorem State.construct_readV (cfg : Config) (r : Reg) : (State.construct cfg).readV r = 0 :=
  Vector.getElem_replicate r.isLt

theorem State.construct_stack (cfg : Config) (j : Fin 16) : (State.construct cfg).stack.get j = 0 :=
  Vector.getElem_replicate j.isLt

theorem State.construct_keyDown (cfg : Config) (k : Key) : (State.construct cfg).keyDown k = false :=
  BitVec.getLsbD_zero

theorem State.construct_byteAt (cfg : Config) (a : Nat) :
    (State.construct cfg).byteAt a = blankByte cfg.font a := rfl

/-- Settles O1: the scalar fields are construction's own, and memory reads as the blank contents. -/
theorem constructionGivesResetValues : Obligations.ConstructionGivesResetValues :=
  ⟨rfl, fun cfg => ⟨State.construct cfg, rfl, State.construct_readV cfg, rfl, rfl, State.construct_stack cfg,
    rfl, rfl, rfl, clearedFramebuffer_pixel, State.construct_keyDown cfg, rfl, rfl, rfl, rfl,
    fun _ _ => blankByte_glyph, fun _ => blankByte_of_outside_font⟩⟩

/-! ### Load -/

/-- The state after a successful load (R232). -/
def State.withRom (s : State) (bytes : List Byte) : State :=
  { s with mem := Memory.writeBytes s.cfg.font s.mem progBase bytes, romBuf := bytes }

theorem State.load_of_le {s : State} (h : bytes.length ≤ s.cfg.romMax.toNat) :
    s.load bytes = (s.withRom bytes, true) :=
  if_neg (not_lt.2 h)

theorem State.load_of_lt {s : State} (h : s.cfg.romMax.toNat < bytes.length) : s.load bytes = (s, false) :=
  if_pos h

theorem State.withRom_byteAt_program (s : State) (i : Nat) (h : i < bytes.length) :
    (s.withRom bytes).byteAt (0x200 + i) = bytes[i] := by
  refine (Memory.read_writeBytes s.cfg.font bytes s.mem progBase (0x200 + i)).trans ?_
  unfold progBase
  rw [if_pos (by omega), Nat.add_sub_cancel_left, List.getD_eq_getElem _ _ h]

theorem State.withRom_byteAt_of_outside (s : State) (h : a < 0x200 ∨ 0x200 + bytes.length ≤ a) :
    (s.withRom bytes).byteAt a = s.byteAt a :=
  (Memory.read_writeBytes s.cfg.font bytes s.mem progBase a).trans
    (if_neg (by unfold progBase; omega))

theorem State.withRom_sameBut (s : State) (bytes : List Byte) :
    SameBut [.memory, .rom] s (s.withRom bytes) := by
  intro p hp
  have hsame := sameBut_refl s p List.not_mem_nil
  cases p with
  | memory | rom => exact absurd hp (by decide)
  | _ => exact hsame

/-- Settles O46, by the load's two branches and the bytes a successful load writes and keeps. -/
theorem loadCopiesTheRomOrDoesNothing : Obligations.LoadCopiesTheRomOrDoesNothing := fun s bytes =>
  ⟨fun hle => ⟨s.withRom bytes, State.load_of_le hle, s.withRom_byteAt_program,
    fun _ => s.withRom_byteAt_of_outside, rfl, fun _ => rfl, rfl, s.withRom_sameBut bytes⟩, State.load_of_lt⟩

/-! ### Reset -/

theorem State.resetOp_eq (s : State) :
    s.resetOp = { (State.construct s.cfg).withRom s.romBuf with draws := s.draws, schedule := s.schedule } :=
  rfl

theorem State.resetOp_byteAt_of_outside (s : State) (h : a < 0x200 ∨ 0x200 + s.romBuf.length ≤ a) :
    s.resetOp.byteAt a = blankByte s.cfg.font a :=
  ((State.construct s.cfg).withRom_byteAt_of_outside h).trans (State.construct_byteAt s.cfg a)

/-- Settles O2: the scalar fields are construction's, the program's bytes the load's, and every other byte
is blank. -/
theorem resetRestoresEverythingButRomBuf : Obligations.ResetRestoresEverythingButRomBuf := by
  intro s _
  refine ⟨s.resetOp, rfl, State.construct_readV s.cfg, rfl, rfl, State.construct_stack s.cfg, rfl, rfl, rfl,
    clearedFramebuffer_pixel, State.construct_keyDown s.cfg, rfl, rfl, rfl, rfl,
    (State.construct s.cfg).withRom_byteAt_program, fun k j hk hj => ?_, fun a ha => ?_, ⟨rfl, rfl⟩, rfl⟩
  · rw [State.resetOp_byteAt_of_outside s (by omega), blankByte_glyph hk hj]
  · rw [State.resetOp_byteAt_of_outside s (by omega), blankByte_of_outside_font (by omega)]

/-- Settles O3: the load succeeds, its state is the reset's but for the draws and the turns, and the cycles
start from equal states once those two agree. -/
theorem restartEqualsFreshLoad : Obligations.RestartEqualsFreshLoad := by
  intro s hrom
  rw [State.load_of_le (s := State.construct s.cfg) hrom]
  refine ⟨rfl, State.resetOp_eq s, fun n turns => ?_⟩
  rw [State.resetOp_eq s]

/-! ### The invariant -/

/-- With `ROMBUF` empty a reset gives the construction state (R230). -/
theorem State.resetOp_construct (cfg : Config) : (State.construct cfg).resetOp = State.construct cfg := rfl

/-- Settles O58: construction is a reset with `ROMBUF` empty, and a reset within `ROM_MAX` gives the
invariant. -/
theorem invariantHoldsAtConstruction : Obligations.InvariantHoldsAtConstruction := by
  intro cfg
  have hrom : (State.construct cfg).romOk := Nat.zero_le _
  rw [← State.resetOp_construct cfg]
  exact State.resetOp_inv hrom

end Sys2Proof.Machine
end
